-- ==== Sys2Proof/Word.lean ====
section
/-! DEFINITION. The word types of the block. Bit 0 is the least significant bit of each
(spec/00_scope.md R17). -/

namespace Sys2Proof

/-- A byte of the state buffer, of IN, of OUT_BYTES or of DEC_BYTES (R30, R41, R42, R43). -/
abbrev Byte := BitVec 8

/-- A 16-bit value: RESULT, RT_LEN, operand B (R40, R44, R81). -/
abbrev Half := BitVec 16

/-- One entry of the raw-timing port, a duration in µs (R44). -/
abbrev Sample := BitVec 32

/-- A command word (R80). -/
abbrev CommandWord := BitVec 32

end Sys2Proof
end

