-- ==== Sys2Proof/Syntax.lean ====
section
/-! DEFINITION. The 30 commands of spec/30_encoding.md R84, one constructor per row of
spec/opcode_table.json. `a` is operand A, `b` operand B (R81, R83). -/

namespace Sys2Proof

inductive Instr where
  -- state buffer (spec/40_buffer_ops.md)
  | nop
  | reset
  | setRaw
  | getRaw
  -- checksum (spec/41_checksum.md)
  | chkCalc
  | chkValid
  | chkCalcIn
  | chkValidIn
  -- field access (spec/42_field_access.md)
  | setTemp (a : Byte)
  | getTemp
  | setMode (a : Byte)
  | getMode
  | setFan (a : Byte)
  | getFan
  | setPower (a : Byte)
  | getPower
  | setWifi (a : Byte)
  | getWifi
  | setTurbo (a : Byte)
  | getTurbo
  | setEcono (a : Byte)
  | getEcono
  | setLight (a : Byte)
  | getLight
  | setSwingH (a : Byte)
  | getSwingH
  | setOffTimer (b : Half)
  -- timing codec (spec/43_timing_encoder.md, spec/44_timing_decoder.md)
  | send (b : Half)
  | decode (a : Byte) (b : Half)
  | decodeStrict (a : Byte) (b : Half)
  deriving DecidableEq, Repr

end Sys2Proof
end

