-- ==== Sys2Proof/WellFormed.lean ====
section
/-! DEFINITION. Which command words are well formed (spec/30_encoding.md R81, R82, R84, R86), said
apart from the decoder: the opcode stands in the map and the fields its format marks "must be 0" are
zero. An operand value is never ill formed (R87), so a term of `Instr` has nothing to check: its
operands have the width of their field. -/

namespace Sys2Proof

/-- The three fields of a command word (R81). -/
structure Fields where
  op : Byte
  a : Byte
  b : Half
  deriving DecidableEq, Repr

/-- Bits 7:0, 15:8 and 31:16 of the word (R81). -/
def CommandWord.fields (w : CommandWord) : Fields :=
  { op := w.extractLsb' 0 8, a := w.extractLsb' 8 8, b := w.extractLsb' 16 16 }

/-- The four formats of R82. -/
inductive Format where
  | z | a | b | ab
  deriving DecidableEq, Repr

/-- Which opcodes have which format, from the map of R84. -/
def Format.opcodes : Format → List Nat
  | .z => [0x00, 0x01, 0x02, 0x03, 0x04, 0x05, 0x06, 0x07,
           0x11, 0x13, 0x15, 0x17, 0x19, 0x1B, 0x1D, 0x1F, 0x21]
  | .a => [0x10, 0x12, 0x14, 0x16, 0x18, 0x1A, 0x1C, 0x1E, 0x20]
  | .b => [0x22, 0x30]
  | .ab => [0x31, 0x32]

/-- Format Z and format B need A = 0 (R82). -/
def Fields.aZeroWhereNeeded (f : Fields) : Bool :=
  !(Format.z.opcodes ++ Format.b.opcodes).contains f.op.toNat || f.a == 0

/-- Format Z and format A need B = 0 (R82). -/
def Fields.bZeroWhereNeeded (f : Fields) : Bool :=
  !(Format.z.opcodes ++ Format.a.opcodes).contains f.op.toNat || f.b == 0

/-- OP stands in the map of R84. -/
def Fields.opDefined (f : Fields) : Bool :=
  (Format.z.opcodes ++ Format.a.opcodes ++ Format.b.opcodes ++ Format.ab.opcodes).contains f.op.toNat

/-- A legal command word: none of the two cases of R86. -/
def Fields.wellFormed (f : Fields) : Bool :=
  f.opDefined && f.aZeroWhereNeeded && f.bZeroWhereNeeded

def CommandWord.wellFormed (w : CommandWord) : Bool := (CommandWord.fields w).wellFormed

end Sys2Proof
end

