-- ==== Sys2Proof/Decode.lean ====
section
/-! DEFINITION. The command decoder (spec/30_encoding.md R80 to R87, R92) and after it the encoder.
The decoder is total: every 32-bit word gives a command or is rejected by name. -/

namespace Sys2Proof

/-- Why a word is illegal (R86). Both end in ILLEGAL_COMMAND. -/
inductive Reject where
  /-- OP stands in no row of R84. -/
  | undefinedOpcode (op : Byte)
  /-- OP is defined, but a field its format marks "must be 0" is not zero. -/
  | mustBeZero (op : Byte)
  deriving DecidableEq, Repr

/-- OP, bits 7:0 (R81). -/
def opField (w : CommandWord) : Byte := w.extractLsb' 0 8

/-- Operand A, bits 15:8 (R81, R83). -/
def aField (w : CommandWord) : Byte := w.extractLsb' 8 8

/-- Operand B, bits 31:16 (R81, R83). -/
def bField (w : CommandWord) : Half := w.extractLsb' 16 16

/-- The must-be-zero fields of a format are zero (R82). -/
def Format.admits (f : Format) (a : Byte) (b : Half) : Bool :=
  match f with
  | .z => a == 0 && b == 0
  | .a => b == 0
  | .b => a == 0
  | .ab => true

/-- The mask column of R82: the opcode and every field that must be zero. -/
def Format.mask : Format → CommandWord
  | .z => 0xFFFFFFFF
  | .a => 0xFFFF00FF
  | .b => 0x0000FFFF
  | .ab => 0x000000FF

/-- One row of the opcode map (R84). -/
structure Row where
  mnemonic : String
  op : Byte
  format : Format
  build : Byte → Half → Instr

/-- The match value of a row: the opcode, with the must-be-zero fields at 0 (R82). -/
def Row.matchWord (r : Row) : CommandWord := r.op.setWidth 32

/-- 0x00 to 0x0F: state buffer and checksum (R85). -/
def bufferRows : List Row :=
  [ ⟨"NOP", 0x00, .z, fun _ _ => .nop⟩
  , ⟨"RESET", 0x01, .z, fun _ _ => .reset⟩
  , ⟨"SET_RAW", 0x02, .z, fun _ _ => .setRaw⟩
  , ⟨"GET_RAW", 0x03, .z, fun _ _ => .getRaw⟩
  , ⟨"CHK_CALC", 0x04, .z, fun _ _ => .chkCalc⟩
  , ⟨"CHK_VALID", 0x05, .z, fun _ _ => .chkValid⟩
  , ⟨"CHK_CALC_IN", 0x06, .z, fun _ _ => .chkCalcIn⟩
  , ⟨"CHK_VALID_IN", 0x07, .z, fun _ _ => .chkValidIn⟩ ]

/-- 0x10 to 0x2F: field access (R85). -/
def fieldRows : List Row :=
  [ ⟨"SET_TEMP", 0x10, .a, fun a _ => .setTemp a⟩
  , ⟨"GET_TEMP", 0x11, .z, fun _ _ => .getTemp⟩
  , ⟨"SET_MODE", 0x12, .a, fun a _ => .setMode a⟩
  , ⟨"GET_MODE", 0x13, .z, fun _ _ => .getMode⟩
  , ⟨"SET_FAN", 0x14, .a, fun a _ => .setFan a⟩
  , ⟨"GET_FAN", 0x15, .z, fun _ _ => .getFan⟩
  , ⟨"SET_POWER", 0x16, .a, fun a _ => .setPower a⟩
  , ⟨"GET_POWER", 0x17, .z, fun _ _ => .getPower⟩
  , ⟨"SET_WIFI", 0x18, .a, fun a _ => .setWifi a⟩
  , ⟨"GET_WIFI", 0x19, .z, fun _ _ => .getWifi⟩
  , ⟨"SET_TURBO", 0x1A, .a, fun a _ => .setTurbo a⟩
  , ⟨"GET_TURBO", 0x1B, .z, fun _ _ => .getTurbo⟩
  , ⟨"SET_ECONO", 0x1C, .a, fun a _ => .setEcono a⟩
  , ⟨"GET_ECONO", 0x1D, .z, fun _ _ => .getEcono⟩
  , ⟨"SET_LIGHT", 0x1E, .a, fun a _ => .setLight a⟩
  , ⟨"GET_LIGHT", 0x1F, .z, fun _ _ => .getLight⟩
  , ⟨"SET_SWINGH", 0x20, .a, fun a _ => .setSwingH a⟩
  , ⟨"GET_SWINGH", 0x21, .z, fun _ _ => .getSwingH⟩
  , ⟨"SET_OFF_TIMER", 0x22, .b, fun _ b => .setOffTimer b⟩ ]

/-- 0x30 to 0x3F: timing codec (R85). -/
def codecRows : List Row :=
  [ ⟨"SEND", 0x30, .b, fun _ b => .send b⟩
  , ⟨"DECODE", 0x31, .ab, fun a b => .decode a b⟩
  , ⟨"DECODE_STRICT", 0x32, .ab, fun a b => .decodeStrict a b⟩ ]

/-- The opcode map (R84). -/
def opcodeRows : List Row := bufferRows ++ fieldRows ++ codecRows

/-- Steps 1 and 2 of R92 on the three fields of a word. -/
def decodeFields (op a : Byte) (b : Half) : Except Reject Instr :=
  match opcodeRows.find? (fun r => r.op == op) with
  | none => .error (.undefinedOpcode op)
  | some r => if r.format.admits a b then .ok (r.build a b) else .error (.mustBeZero op)

/-- The decoder (R92): a command, or the reason the word is illegal. -/
def decode (w : CommandWord) : Except Reject Instr := decodeFields (opField w) (aField w) (bField w)

/-- A word from its fields: B, A, OP from the most significant end (R81). -/
def pack (op a : Byte) (b : Half) : CommandWord := b ++ a ++ op

/-- The encoder: the word of a command (R82, R84). -/
def encode : Instr → CommandWord
  | .nop => pack 0x00 0 0
  | .reset => pack 0x01 0 0
  | .setRaw => pack 0x02 0 0
  | .getRaw => pack 0x03 0 0
  | .chkCalc => pack 0x04 0 0
  | .chkValid => pack 0x05 0 0
  | .chkCalcIn => pack 0x06 0 0
  | .chkValidIn => pack 0x07 0 0
  | .setTemp a => pack 0x10 a 0
  | .getTemp => pack 0x11 0 0
  | .setMode a => pack 0x12 a 0
  | .getMode => pack 0x13 0 0
  | .setFan a => pack 0x14 a 0
  | .getFan => pack 0x15 0 0
  | .setPower a => pack 0x16 a 0
  | .getPower => pack 0x17 0 0
  | .setWifi a => pack 0x18 a 0
  | .getWifi => pack 0x19 0 0
  | .setTurbo a => pack 0x1A a 0
  | .getTurbo => pack 0x1B 0 0
  | .setEcono a => pack 0x1C a 0
  | .getEcono => pack 0x1D 0 0
  | .setLight a => pack 0x1E a 0
  | .getLight => pack 0x1F 0 0
  | .setSwingH a => pack 0x20 a 0
  | .getSwingH => pack 0x21 0 0
  | .setOffTimer b => pack 0x22 0 b
  | .send b => pack 0x30 0 b
  | .decode a b => pack 0x31 a b
  | .decodeStrict a b => pack 0x32 a b

/-- The command decoded from an opcode-table word: bits above `nbits` are 0, and no command has more
than one 32-bit word (R80; log entry 13). -/
def decodeTableWord (nbits w : Nat) : Option Instr :=
  if nbits ≤ 32 then (decode (BitVec.ofNat 32 (w % 2 ^ nbits))).toOption else none

end Sys2Proof
end

