-- ==== Sys2Proof/Config.lean ====
section
/-! DEFINITION. The configuration of the block (spec/00_scope.md R6 to R16, spec/10_state.md R46):
fixed when the block is instantiated, written by no command. The values the spec gives are plain
definitions. What an instance may set, the unaudited literals and the OPEN parameters among it, are the
fields of ONE opaque record, `Config.chosen`, of which nothing is known but the limits on it. -/

namespace Sys2Proof.Config

/-- STATE_LEN (R6). -/
def stateLen : Nat := 10

/-- STATE_BITS = DEFAULT_NBITS (R6). -/
def stateBits : Nat := 80

/-- TEMP_MIN in °C (R7). -/
def tempMin : Nat := 16

/-- TEMP_MAX in °C (R7). -/
def tempMax : Nat := 30

/-- IN_CAP (R16). -/
def inCap : Nat := 255

/-- OFF_TIMER_ENCODE of the reference layout (spec/93_implementation_defined.md I6): bytes 4 to 7. -/
def referenceOffTimer (b : Half) : Vector Byte 4 :=
  let mins := min b.toNat (23 * 60 + 59)
  let hrs := mins / 60 + 1
  #v[0x00, BitVec.ofNat 8 (mins % 60 + hrs / 12 % 2 * 128), 0x00, BitVec.ofNat 8 (hrs % 12 * 16)]

/-- `|m - e| ≤ e div 4`, the reference mark and space match (spec/93_implementation_defined.md I4). -/
def referenceMatch (m e : Nat) : Bool := decide (m ≤ e + e / 4 ∧ e - e / 4 ≤ m)

/-- `m ≥ e - e div 4`, the reference gap match (spec/93_implementation_defined.md I4). -/
def referenceAtLeast (m e : Nat) : Bool := decide (e - e / 4 ≤ m)

/-- The fields that an instance may set, with the limits on them: the spec's, and that the durations of
marks and spaces fit an RT entry (log entry 15). The field defaults are those of R8, R9 and R16 and, for
the OPEN parameters, the reference instance of spec/93_implementation_defined.md (I2, I3, I4, I6, I7).
No rule of the model uses the defaults: they show that the limits can be met, and the tests run on
them. -/
structure Params where
  /-- BIT_MARK_US (R8, U9; log entry 4). -/
  bitMarkUs : Nat := 1026
  bitMark_fits : bitMarkUs < 2 ^ 32 := by decide
  /-- ONE_SPACE_US (R8, U9; log entry 4). -/
  oneSpaceUs : Nat := 2553
  oneSpace_fits : oneSpaceUs < 2 ^ 32 := by decide
  /-- ZERO_SPACE_US (R8, U9; log entry 4). -/
  zeroSpaceUs : Nat := 554
  zeroSpace_fits : zeroSpaceUs < 2 ^ 32 := by decide
  /-- CARRIER_HZ (R8, U9; log entry 4). -/
  carrierHz : Nat := 38000
  /-- FOOTER_MARK_US: by default that of BIT_MARK_US; 0 is no footer mark (R9; log entry 5). -/
  footerMarkUs : Nat := bitMarkUs
  footerMark_fits : footerMarkUs < 2 ^ 32 := by decide
  /-- RT_CAP (R16). -/
  rtCap : Nat := 1024
  rtCap_floor : 162 ≤ rtCap := by decide
  /-- GAP_US (R10). -/
  gapUs : Nat := 100000
  gap_pos : 0 < gapUs := by decide
  /-- DUTY_PCT (R11). -/
  dutyPct : Nat := 50
  duty_range : 1 ≤ dutyPct ∧ dutyPct ≤ 100 := by decide
  /-- MODE_FAN, MODE_HEAT, MODE_DRY, MODE_COOL: four distinct 4-bit codes (R12). DESIGN CHOICE: one of
  them may be 0, though R142 counts 0 among the codes outside the four (log entry 16). -/
  modeFan : BitVec 4 := 1
  modeHeat : BitVec 4 := 2
  modeDry : BitVec 4 := 4
  modeCool : BitVec 4 := 8
  mode_distinct : [modeFan, modeHeat, modeDry, modeCool].Nodup := by decide
  /-- FAN_LOW, FAN_MED, FAN_HIGH, FAN_AUTO: four distinct 3-bit codes (R13). -/
  fanLow : BitVec 3 := 4
  fanMed : BitVec 3 := 2
  fanHigh : BitVec 3 := 1
  fanAuto : BitVec 3 := 7
  fan_distinct : [fanLow, fanMed, fanHigh, fanAuto].Nodup := by decide
  /-- MatchMark, MatchSpace, MatchAtLeast: measured, then expected, in µs (R14). -/
  matchMark : Nat → Nat → Bool := referenceMatch
  matchSpace : Nat → Nat → Bool := referenceMatch
  matchAtLeast : Nat → Nat → Bool := referenceAtLeast
  /-- Property P1 of R14. -/
  mark_self : ∀ d, matchMark d d = true := by
    intro d; exact decide_eq_true ⟨Nat.le_add_right d _, Nat.sub_le d _⟩
  space_self : ∀ d, matchSpace d d = true := by
    intro d; exact decide_eq_true ⟨Nat.le_add_right d _, Nat.sub_le d _⟩
  atLeast_self : ∀ d, matchAtLeast d d = true := by
    intro d; exact decide_eq_true (Nat.sub_le d _)
  /-- Property P2 of R14. -/
  zero_not_one : matchSpace zeroSpaceUs oneSpaceUs = false := by decide
  /-- OFF_TIMER_MASK over state bytes 4 to 7 (R15). -/
  offTimerMask : Vector Byte 4 := #v[0x00, 0xBF, 0x00, 0xF0]
  /-- OFF_TIMER_ENCODE (R15). -/
  offTimerEncode : Half → Vector Byte 4 := referenceOffTimer
  deriving Inhabited

/-- The number of pulses or samples of a footer mark: one, or none where there is no footer mark
(spec/43_timing_encoder.md R182, spec/44_timing_decoder.md R203). -/
def Params.footerLen (p : Params) : Nat := if p.footerMarkUs > 0 then 1 else 0

/-- The configuration of this block (R8 to R16): any values within the limits. No body, so no proof
can know more of it (log entry 3). -/
opaque chosen : Params

/-- The reference instance of spec/93_implementation_defined.md, for tests. -/
def reference : Params := {}

end Sys2Proof.Config
end

