-- ==== Sys2Proof/Machine/State.lean ====
section
/-! DEFINITION. The state of the block (spec/10_state.md R30 to R49), the host's actions on it
(spec/20_memory.md R72, R73), the faults and refusals of a step, and the state after power-on
reset (R48, spec/70_reset_and_hazards.md R260). -/

namespace Sys2Proof.Machine

/-- A level of the emitter: carrier on or off (spec/00_scope.md R20, R45). -/
inductive Level where
  | mark
  | space
  deriving DecidableEq, Repr

/-- One pulse of a transmit record (R45). -/
structure Pulse where
  level : Level
  durationUs : Nat
  deriving DecidableEq, Repr

/-- A transmit record, `(freq_hz, duty_pct, pulses)` (R45, spec/43_timing_encoder.md R185). -/
structure TxRecord where
  freqHz : Nat
  dutyPct : Nat
  pulses : List Pulse
  deriving DecidableEq, Repr

/-- The output registers the host reads (R39 to R42, R45). -/
inductive HostReg where
  | status
  | result
  | outByte (i : Fin 10)
  | decBits
  | decByte (i : Fin 10)
  | txLog
  deriving DecidableEq, Repr

/-- What the host does between two commands, or to issue one (spec/00_scope.md R5,
spec/20_memory.md R72, R73, spec/70_reset_and_hazards.md R260). The indices are those of the ports
as they exist (spec/00_scope.md R16), so a write outside a port cannot be formed. -/
inductive HostAction where
  /-- Issue a command word. -/
  | command (w : CommandWord)
  /-- Write IN[i]. -/
  | writeIn (i : Fin Config.inCap) (v : Byte)
  /-- Write IN_LEN. -/
  | writeInLen (n : Byte)
  /-- Write RT[i]. -/
  | writeRt (i : Fin Config.chosen.rtCap) (v : Sample)
  /-- Write RT_LEN. -/
  | writeRtLen (n : Half)
  /-- Read an output register. -/
  | read (r : HostReg)
  /-- Power-on reset. -/
  | powerOn
  deriving DecidableEq, Repr

/-- The cells of a port: written entries only, addresses strictly rising (R43, R44). -/
abbrev Cells (α : Type) := List (Nat × α)

/-- The state buffer as address and byte pairs, addresses strictly rising; a byte that is not
listed is 0x00, its reset value (R30, R48, spec/20_memory.md R60; log entry 8). -/
abbrev Memory := List Host.Cell

/-- Everything the spec gives the machine (R38, R47), and the host's coming actions. `none` is the
spec's own "no value" (R48, R49, spec/44_timing_decoder.md R207; log entry 1). -/
structure State where
  /-- STATE[0..9] (R30). -/
  mem : Memory
  /-- STATUS (R39). -/
  status : Option (BitVec 4)
  /-- RESULT (R40). -/
  result : Option Half
  /-- OUT_BYTES[0..9] (R41). -/
  outBytes : Vector (Option Byte) 10
  /-- DEC_BITS (R42). -/
  decBits : Option Byte
  /-- DEC_BYTES[0..9] (R42). -/
  decBytes : Vector (Option Byte) 10
  /-- IN_LEN (R43). -/
  inLen : Byte
  /-- IN (R43). -/
  inPort : Cells Byte
  /-- RT_LEN (R44). -/
  rtLen : Half
  /-- RT (R44). -/
  rtPort : Cells Sample
  /-- TX_LOG, oldest record first (R45). -/
  txLog : List TxRecord
  /-- The host's coming actions, oldest first: the model's own field (log entry 2). -/
  host : List HostAction
  deriving DecidableEq, Repr

/-- A location that holds no value. -/
inductive Location where
  /-- IN[i]. -/
  | inByte (i : Nat)
  /-- RT[i]. -/
  | rtSample (i : Nat)
  /-- An output register. -/
  | register (r : HostReg)
  deriving DecidableEq, Repr

/-- Why the machine stops with no next state. -/
inductive Fault where
  /-- ReadUnwritten (R49, spec/60_exceptions.md R234): raised by SET_RAW, CHK_CALC_IN, CHK_VALID_IN,
  DECODE and DECODE_STRICT on an IN or RT entry the host never wrote, by a host read of a register
  that holds no value, and by a host write of RT_LEN above RT_CAP (spec/70_reset_and_hazards.md
  R265, log entry 6). Safe: the block has no next state to make a claim about. -/
  | readUnwritten (loc : Location)
  deriving DecidableEq, Repr

/-- Why a step has no meaning. -/
inductive Refusal where
  /-- Raised by an arm of `exec` whose instruction has no meaning yet; no arm does. Safe. -/
  | notModelled (mnemonic : String)
  deriving DecidableEq, Repr

/-- The outcome of a command or of a step. -/
abbrev Result := Host.Outcome State Fault Refusal

/-- The state after power-on reset, the table of R48. -/
def State.reset : State where
  mem := []
  status := none
  result := none
  outBytes := #v[none, none, none, none, none, none, none, none, none, none]
  decBits := none
  decBytes := #v[none, none, none, none, none, none, none, none, none, none]
  inLen := 0
  inPort := []
  rtLen := 0
  rtPort := []
  txLog := []
  host := []

end Sys2Proof.Machine
end

