-- ==== Sys2Proof/Machine/Flags.lean ====
section
/-! DEFINITION. STATUS, the block's only flag register (spec/10_state.md R39), and its completion
codes (spec/60_exceptions.md R230). There are no condition codes. -/

namespace Sys2Proof.Machine

/-- How a command ends (R230). -/
inductive Completion where
  | ok
  | lengthMismatch
  | decMismatch
  | decShort
  | decChecksum
  | decNbits
  | illegalCommand
  deriving DecidableEq, Repr

/-- The code STATUS holds (R230); 7 to 15 are never written. -/
def Completion.code : Completion → BitVec 4
  | .ok => 0
  | .lengthMismatch => 1
  | .decMismatch => 2
  | .decShort => 3
  | .decChecksum => 4
  | .decNbits => 5
  | .illegalCommand => 6

end Sys2Proof.Machine
end

