-- ==== Sys2Proof/Machine/Ops.lean ====
section
/-! DEFINITION. The named operations over memory, ports and registers, and the two ways a command
ends: `finish` and `raise` (spec/00_scope.md R18). The block takes no traps (spec/60_exceptions.md
R235): `raise` is all that a failure does, and there is nothing to return from. -/

namespace Sys2Proof.Machine

/-! ### Cells: address and value pairs, addresses strictly rising -/

/-- The value listed at an address. -/
def cellLookup {α : Type} (a : Nat) : Cells α → Option α
  | [] => none
  | (k, v) :: rest => if k = a then some v else cellLookup a rest

/-- List a value at an address, keeping the addresses rising. -/
def cellInsert {α : Type} (a : Nat) (v : α) : Cells α → Cells α
  | [] => [(a, v)]
  | (k, w) :: rest =>
    if a < k then (a, v) :: (k, w) :: rest
    else if a = k then (a, v) :: rest
    else (k, w) :: cellInsert a v rest

/-- Take an address out of the list. -/
def cellErase {α : Type} (a : Nat) (l : Cells α) : Cells α := l.filter (fun c => c.1 != a)

/-- The canonical form of a cell list: addresses strictly rising. -/
abbrev Cells.Sorted {α : Type} (l : Cells α) : Prop := (l.map Prod.fst).Pairwise (· < ·)

/-! ### The state buffer -/

/-- What a byte of the state buffer that is not listed reads as: its reset value (spec/10_state.md
R48). -/
def Memory.unlisted : Byte := 0

/-- `STATE[a]` (spec/00_scope.md R18). An address outside 0 to 9 cannot be formed
(spec/20_memory.md R60, R66). -/
def Memory.read (m : Memory) (a : Fin 10) : Byte := (cellLookup a.val m).getD Memory.unlisted

/-- `STATE[a] <- v` (spec/00_scope.md R18), keeping the canonical form. -/
def Memory.write (m : Memory) (a : Fin 10) (v : Byte) : Memory :=
  if v = Memory.unlisted then cellErase a.val m else cellInsert a.val v m

/-- `MemRead(0, 10)`: the ten bytes, STATE[0] first (spec/00_scope.md R18). -/
def Memory.bytes (m : Memory) : List Byte := List.ofFn m.read

/-- `MemWrite(0, 10, L)`: all ten bytes at once (spec/20_memory.md R67, R68). -/
def Memory.ofFn (f : Fin 10 → Byte) : Memory :=
  (List.ofFn fun a : Fin 10 => (a.val, f a)).filter (fun c => c.2 != Memory.unlisted)

/-- The canonical form of the state buffer: addresses rising, all of them below 10, and no entry
equal to what an unlisted address reads as. -/
abbrev Memory.wf (m : Memory) : Prop :=
  Cells.Sorted m ∧ ∀ c ∈ m, c.1 < 10 ∧ c.2 ≠ Memory.unlisted

/-! ### Updates of one part of the state -/

def State.withMem (s : State) (m : Memory) : State := { s with mem := m }
def State.withStatus (s : State) (c : Completion) : State := { s with status := some c.code }
def State.withResult (s : State) (v : Half) : State := { s with result := some v }
def State.withOutBytes (s : State) (f : Fin 10 → Byte) : State :=
  { s with outBytes := Vector.ofFn fun i => some (f i) }
/-- DEC_BITS and DEC_BYTES: the bytes past the end of the list get no value
(spec/44_timing_decoder.md R207). -/
def State.withDecoded (s : State) (nbits : Byte) (bytes : List Byte) : State :=
  { s with decBits := some nbits, decBytes := Vector.ofFn fun i => bytes[i.val]? }
/-- `emit(P)` (spec/00_scope.md R18, spec/10_state.md R45). -/
def State.withRecord (s : State) (r : TxRecord) : State := { s with txLog := s.txLog ++ [r] }
def State.withInByte (s : State) (i : Nat) (v : Byte) : State :=
  { s with inPort := cellInsert i v s.inPort }
def State.withInLen (s : State) (n : Byte) : State := { s with inLen := n }
def State.withRtSample (s : State) (i : Nat) (v : Sample) : State :=
  { s with rtPort := cellInsert i v s.rtPort }
def State.withRtLen (s : State) (n : Half) : State := { s with rtLen := n }
def State.withHost (s : State) (l : List HostAction) : State := { s with host := l }

/-! ### How a command ends -/

/-- `finish`: STATUS <- OK (spec/00_scope.md R18). -/
def finish (s : State) : Result := .next (s.withStatus .ok)

/-- `raise E`: STATUS <- code(E) and nothing else (spec/00_scope.md R18, spec/60_exceptions.md R231). -/
def raise (e : Completion) (s : State) : Result := .next (s.withStatus e)

/-- ReadUnwritten: no next state (spec/10_state.md R49, spec/60_exceptions.md R234). -/
def unwritten (loc : Location) : Result := .fault (.readUnwritten loc)

/-- End a getter or a checksum command: RESULT <- v, then `finish` (spec/10_state.md R40). -/
def finishWith (v : Half) (s : State) : Result := finish (s.withResult v)

/-- End a field setter: the new state buffer, then `finish` (spec/42_field_access.md R161). -/
def finishMem (m : Memory) (s : State) : Result := finish (s.withMem m)

end Sys2Proof.Machine
end

