-- ==== Sys2Proof/Machine/Operands.lean ====
section
/-! DEFINITION. Every operand form of the commands: operands A and B of the word
(spec/30_encoding.md R83), the byte input port (spec/10_state.md R43), the raw-timing port (R44),
and the named bit fields of the state buffer (R31). -/

namespace Sys2Proof.Machine

/-! ### Operands of the word -/

/-- `zext_16` of an 8-bit value (spec/00_scope.md R18, spec/30_encoding.md R83). -/
def zext16 (v : Byte) : Half := v.setWidth 16

/-- `bool(a)`: 1 if a ≠ 0, else 0 (spec/00_scope.md R18). -/
def boolBit (a : Byte) : Byte := if a = 0 then 0 else 1

/-- The two values of a test, as RESULT holds them (spec/10_state.md R40). -/
def truth (b : Bool) : Half := if b then 1 else 0

/-- `clamp(v, lo, hi)` (spec/00_scope.md R18). -/
def clamp (v lo hi : Nat) : Nat := min (max v lo) hi

/-! ### The input ports -/

/-- IN[i], if the host wrote it (R43). -/
def State.inByte? (s : State) (i : Nat) : Option Byte :=
  if i < Config.inCap then cellLookup i s.inPort else none

/-- RT[i] in µs, if the host wrote it. Only entries below RT_CAP are ever listed (R44). -/
def State.rtSample? (s : State) (i : Nat) : Option Nat := (cellLookup i s.rtPort).map BitVec.toNat

/-- The entries `i, i+1, …, i+n-1` of a port, or the first of them that was never written. -/
def readRange {α : Type} (read : Nat → Option α) (i : Nat) : Nat → Except Nat (List α)
  | 0 => .ok []
  | n + 1 =>
    match read i with
    | none => .error i
    | some v =>
      match readRange read (i + 1) n with
      | .error j => .error j
      | .ok l => .ok (v :: l)

/-- Give IN[0..n-1] to a command, or stop with ReadUnwritten (R49; log entry 12). -/
def withIn (s : State) (n : Nat) (k : List Byte → Result) : Result :=
  match readRange s.inByte? 0 n with
  | .error i => unwritten (.inByte i)
  | .ok l => k l

/-! ### The fields of the state buffer -/

/-- The fields of the table of spec/10_state.md R31 that lie in one byte. Bytes 4 to 7 are split by
OFF_TIMER_MASK instead. -/
inductive BitField where
  | swingH | reserved0
  | mode | reserved1 | fanSpeed
  | swingV | wifi | reserved2 | turbo | sleep | power
  | temp | reserved3 | econo | tempSet
  | reserved8 | light | offTimerEnable | reserved8High
  | checksum
  deriving DecidableEq, Repr

/-- Where a field lies: its byte, its lowest bit, its width. -/
structure Place where
  byte : Fin 10
  lo : Nat
  width : Nat
  deriving DecidableEq, Repr

/-- The bit layout of R31. -/
def BitField.place : BitField → Place
  | .swingH => ⟨0, 0, 1⟩
  | .reserved0 => ⟨0, 1, 7⟩
  | .mode => ⟨1, 0, 4⟩
  | .reserved1 => ⟨1, 4, 1⟩
  | .fanSpeed => ⟨1, 5, 3⟩
  | .swingV => ⟨2, 0, 3⟩
  | .wifi => ⟨2, 3, 1⟩
  | .reserved2 => ⟨2, 4, 1⟩
  | .turbo => ⟨2, 5, 1⟩
  | .sleep => ⟨2, 6, 1⟩
  | .power => ⟨2, 7, 1⟩
  | .temp => ⟨3, 0, 4⟩
  | .reserved3 => ⟨3, 4, 2⟩
  | .econo => ⟨3, 6, 1⟩
  | .tempSet => ⟨3, 7, 1⟩
  | .reserved8 => ⟨8, 0, 5⟩
  | .light => ⟨8, 5, 1⟩
  | .offTimerEnable => ⟨8, 6, 1⟩
  | .reserved8High => ⟨8, 7, 1⟩
  | .checksum => ⟨9, 0, 8⟩

/-- The bits of the field's byte that belong to the field. -/
def Place.mask (p : Place) : Byte := BitVec.ofNat 8 ((2 ^ p.width - 1) * 2 ^ p.lo)

/-- The bits `e` under the mask, the bits of `old` elsewhere (spec/42_field_access.md R160, R161). -/
def underMask (mask e old : Byte) : Byte := (old &&& ~~~mask) ||| (e &&& mask)

/-- `v[hi:lo]` of a byte (spec/00_scope.md R17). -/
def Place.extract (p : Place) (b : Byte) : Byte := (b >>> p.lo) &&& BitVec.ofNat 8 (2 ^ p.width - 1)

/-- `b[hi:lo] <- v`, the other bits of the byte unchanged (spec/00_scope.md R18). -/
def Place.insert (p : Place) (v b : Byte) : Byte := underMask p.mask (v <<< p.lo) b

/-- The field's value, read from the state buffer. -/
def Memory.field (m : Memory) (f : BitField) : Byte := f.place.extract (m.read f.place.byte)

/-- Write a field: a read-modify-write of its one byte (spec/42_field_access.md R161,
spec/20_memory.md R67). -/
def Memory.setField (m : Memory) (f : BitField) (v : Byte) : Memory :=
  m.write f.place.byte (f.place.insert v (m.read f.place.byte))

end Sys2Proof.Machine
end

