-- ==== Sys2Proof/Machine/Checksum.lean ====
section
/-! DEFINITION. The checksum functions (spec/41_checksum.md R120, R121, R127) and the four checksum
commands (R122 to R125). -/

namespace Sys2Proof.Machine

/-- `sum8(L)`: the ordinary sum, mod 256 (spec/00_scope.md R18). -/
def sum8 (l : List Byte) : Nat := (l.map BitVec.toNat).sum % 256

/-- `~8 sum8(L)` of the payload bytes (R120, spec/00_scope.md R18). -/
def payloadChecksum (payload : List Byte) : Byte := BitVec.ofNat 8 (255 - sum8 payload)

/-- `calc(L, n)` with n the length of L: the last byte is no payload (R120). -/
def calcChecksum (l : List Byte) : Byte := if l = [] then 0 else payloadChecksum l.dropLast

/-- `valid(L, n)` with n the length of L (R127). -/
def validChecksum (l : List Byte) : Bool :=
  match l.getLast? with
  | none => true
  | some last => last == calcChecksum l

/-- `ck(STATE)`, from bytes 0 to 8 (R120). -/
def Memory.ck (m : Memory) : Byte := calcChecksum m.bytes

/-- `STATE[9] <- ck(STATE)` (R121). -/
def Memory.recompute (m : Memory) : Memory := m.write 9 m.ck

/-- CHK_CALC (R122). -/
def execChkCalc (s : State) : Result := finishWith (zext16 s.mem.ck) s

/-- CHK_VALID (R123). -/
def execChkValid (s : State) : Result := finishWith (truth (s.mem.read 9 == s.mem.ck)) s

/-- CHK_CALC_IN (R124): reads IN[0..n−2] only. -/
def execChkCalcIn (s : State) : Result :=
  if s.inLen = 0 then finishWith 0 s
  else withIn s (s.inLen.toNat - 1) fun payload => finishWith (zext16 (payloadChecksum payload)) s

/-- CHK_VALID_IN (R125): reads IN[0..n−1]. -/
def execChkValidIn (s : State) : Result :=
  withIn s s.inLen.toNat fun l => finishWith (truth (validChecksum l)) s

end Sys2Proof.Machine
end

