-- ==== Sys2Proof/Machine/Buffer.lean ====
section
/-! DEFINITION. The state-buffer commands (spec/40_buffer_ops.md R100 to R103). -/

namespace Sys2Proof.Machine

/-- NOP (R100). -/
def execNop (s : State) : Result := finish s

/-- RESET (R101): every byte of STATE becomes 0. -/
def execReset (s : State) : Result := finishMem (Memory.ofFn fun _ => 0x00) s

/-- SET_RAW (R102): the length is checked before IN is read. -/
def execSetRaw (s : State) : Result :=
  if s.inLen.toNat ≠ Config.stateLen then raise .lengthMismatch s
  else withIn s Config.stateLen fun l => finishMem (Memory.ofFn fun i => l.getD i.val 0) s

/-- GET_RAW (R103): the checksum first, then the snapshot. -/
def execGetRaw (s : State) : Result :=
  let m := s.mem.recompute
  finish ((s.withMem m).withOutBytes m.read)

end Sys2Proof.Machine
end

