-- ==== Sys2Proof/Machine/Decoder.lean ====
section
/-! DEFINITION. The mark/space pulse-timing decoder (spec/44_timing_decoder.md R200 to R210). The
three match predicates are the OPEN parameters of spec/00_scope.md R14, and the footer mark is that
of R9. -/

namespace Sys2Proof.Machine

/-- Why a decode ends without bytes: a completion code, or a sample the host never wrote. -/
inductive DecodeStop where
  | failed (e : Completion)
  | unwritten (i : Nat)
  deriving DecidableEq, Repr

/-- What to decode: the strict flag, the bit count, the sample offset and RT_LEN. -/
structure DecodeJob where
  strict : Bool
  nbits : Nat
  off : Nat
  rtLen : Nat
  deriving DecidableEq, Repr

/-- What a decode command with operands a and b asks for (R201, R202). -/
abbrev State.decodeJob (s : State) (strict : Bool) (a : Byte) (b : Half) : DecodeJob :=
  ⟨strict, a.toNat, b.toNat, s.rtLen.toNat⟩

/-- `need` (R203). The footer's term stands first, so that a sum with a positive bit count evaluates to
a positive number whatever that term is. -/
def DecodeJob.need (p : Config.Params) (j : DecodeJob) : Nat := p.footerLen + 2 * j.nbits

/-- The bit count is one this decode can take (R203). -/
def DecodeJob.nbitsOk (j : DecodeJob) : Bool :=
  !(j.strict && j.nbits != Config.stateBits) &&
    !(j.nbits == 0 || j.nbits % 8 != 0 || decide (j.nbits > Config.stateBits))

/-- The bit of a cell with mark m and space s; none where a match fails. The one-space is tried
first (R204). -/
def cellBit (p : Config.Params) (m s : Nat) : Option Bool :=
  if p.matchMark m p.bitMarkUs then
    if p.matchSpace s p.oneSpaceUs then some true
    else if p.matchSpace s p.zeroSpaceUs then some false
    else none
  else none

/-- Match `n` bit cells from a sample index on (R204). Both samples of a cell are read, then matched
(log entry 7); the first cell that fails ends the decode. -/
def decodeCells (p : Config.Params) (rt : Nat → Option Nat) (pos : Nat) :
    Nat → Except DecodeStop (List Bool)
  | 0 => .ok []
  | n + 1 =>
    match rt pos with
    | none => .error (.unwritten pos)
    | some m =>
      match rt (pos + 1) with
      | none => .error (.unwritten (pos + 1))
      | some s =>
        match cellBit p m s with
        | none => .error (.failed .decMismatch)
        | some bit =>
          match decodeCells p rt (pos + 2) n with
          | .error e => .error e
          | .ok bits => .ok (bit :: bits)

/-- Read one sample and match it (R205). -/
def checkSample (rt : Nat → Option Nat) (i : Nat) (isMatch : Nat → Bool) : Except DecodeStop Unit :=
  match rt i with
  | none => .error (.unwritten i)
  | some d => if isMatch d then .ok () else .error (.failed .decMismatch)

/-- The end of the frame: the footer mark, if there is one, then the gap sample, if it exists (R205). -/
def checkEnd (p : Config.Params) (rt : Nat → Option Nat) (j : DecodeJob) : Except DecodeStop Unit :=
  let gap :=
    if j.off + j.need p < j.rtLen then checkSample rt (j.off + j.need p) (p.matchAtLeast · p.gapUs)
    else .ok ()
  if p.footerMarkUs > 0 then
    match checkSample rt (j.off + 2 * j.nbits) (p.matchMark · p.footerMarkUs) with
    | .error e => .error e
    | .ok () => gap
  else gap

/-- A byte from its bits, most significant first (R206, spec/20_memory.md R63). -/
def packByte (bits : List Bool) : Byte :=
  BitVec.ofNat 8 (bits.foldl (fun acc bit => 2 * acc + bit.toNat) 0)

/-- `n` bytes from their bits, byte 0 first (R206, spec/20_memory.md R64). -/
def packBytes : Nat → List Bool → List Byte
  | 0, _ => []
  | n + 1, bits => packByte (bits.take 8) :: packBytes n (bits.drop 8)

/-- The decode algorithm of R203 to R207, up to the commit. -/
def decodeBytes (p : Config.Params) (rt : Nat → Option Nat) (j : DecodeJob) :
    Except DecodeStop (List Byte) :=
  if !j.nbitsOk then .error (.failed .decNbits)
  else if j.off + j.need p > j.rtLen then .error (.failed .decShort)
  else
    match decodeCells p rt j.off j.nbits with
    | .error e => .error e
    | .ok bits =>
      match checkEnd p rt j with
      | .error e => .error e
      | .ok () =>
        let bytes := packBytes (j.nbits / 8) bits
        if j.strict && !validChecksum bytes then .error (.failed .decChecksum) else .ok bytes

/-- A decode command in a configuration: commit the bytes and finish, raise, or stop with
ReadUnwritten (R207). -/
def decodeCommand (p : Config.Params) (strict : Bool) (a : Byte) (b : Half) (s : State) : Result :=
  match decodeBytes p s.rtSample? (s.decodeJob strict a b) with
  | .ok bytes => finish (s.withDecoded a bytes)
  | .error (.failed e) => raise e s
  | .error (.unwritten i) => unwritten (.rtSample i)

/-- DECODE, lenient (R201). -/
def execDecode (a : Byte) (b : Half) (s : State) : Result := decodeCommand Config.chosen false a b s

/-- DECODE_STRICT (R202). -/
def execDecodeStrict (a : Byte) (b : Half) (s : State) : Result :=
  decodeCommand Config.chosen true a b s

end Sys2Proof.Machine
end

