-- ==== Sys2Proof/Machine/Encoder.lean ====
section
/-! DEFINITION. The mark/space pulse-timing encoder (spec/43_timing_encoder.md R180 to R186). The
block ends at the transmit record: what the emitter does with it is not modelled (R185, log entry
9). -/

namespace Sys2Proof.Machine

/-- The bits of a byte as they go on the wire, bit 7 first (spec/20_memory.md R63, R65). -/
def wireBits (b : Byte) : List Bool := (List.range 8).map fun j => b.getLsbD (7 - j)

/-- The bits of a byte list on the wire, byte 0 first (spec/20_memory.md R64). -/
def wireBitsOf (bytes : List Byte) : List Bool := bytes.flatMap wireBits

/-- The bit cell of a bit (R181). -/
def cell (p : Config.Params) (v : Bool) : List Pulse :=
  [⟨.mark, p.bitMarkUs⟩, ⟨.space, if v then p.oneSpaceUs else p.zeroSpaceUs⟩]

/-- The end of a frame: the footer mark, unless its duration is 0, and the gap (R182). -/
def frameEnd (p : Config.Params) : List Pulse :=
  (if p.footerMarkUs > 0 then [⟨.mark, p.footerMarkUs⟩] else []) ++ [⟨.space, p.gapUs⟩]

/-- `frame(S)` (R182). -/
def frame (p : Config.Params) (bytes : List Byte) : List Pulse :=
  (wireBitsOf bytes).flatMap (cell p) ++ frameEnd p

/-- The record of SEND with repeat count b: 1 + b identical frames (R184). -/
def sendRecord (p : Config.Params) (b : Half) (bytes : List Byte) : TxRecord where
  freqHz := p.carrierHz
  dutyPct := p.dutyPct
  pulses := (List.replicate (1 + b.toNat) (frame p bytes)).flatten

/-- The duration of a pulse list in µs. -/
def duration (l : List Pulse) : Nat := (l.map Pulse.durationUs).sum

/-- `ones(S)`: the number of 1 bits (R183). -/
def ones (bytes : List Byte) : Nat := (wireBitsOf bytes).count true

/-- The arguments of the external transmission primitive (R185). -/
structure PrimitiveArgs where
  markUs : Nat
  oneSpaceUs : Nat
  zeroSpaceUs : Nat
  trailingGapUs : Nat
  payload : List Byte
  bitCount : Nat
  frequencyHz : Nat
  msbFirst : Bool
  repeatCount : Nat
  dutyCycle : Nat
  deriving DecidableEq, Repr

/-- The values SEND gives them, once byte 9 is recomputed (R185). -/
def primitiveArgs (p : Config.Params) (b : Half) (m : Memory) : PrimitiveArgs where
  markUs := p.bitMarkUs
  oneSpaceUs := p.oneSpaceUs
  zeroSpaceUs := p.zeroSpaceUs
  trailingGapUs := p.gapUs
  payload := m.recompute.bytes
  bitCount := Config.stateBits
  frequencyHz := p.carrierHz
  msbFirst := true
  repeatCount := b.toNat
  dutyCycle := p.dutyPct

/-- SEND in a configuration: the checksum first, then one record (R184). One step, with no clock
(R186). -/
def sendCommand (p : Config.Params) (b : Half) (s : State) : Result :=
  let m := s.mem.recompute
  finish ((s.withMem m).withRecord (sendRecord p b m.bytes))

/-- SEND (R184). -/
def execSend (b : Half) (s : State) : Result := sendCommand Config.chosen b s

end Sys2Proof.Machine
end

