-- ==== Sys2Proof/Machine/FieldAccess.lean ====
section
/-! DEFINITION. The field-access commands (spec/42_field_access.md R140 to R164). A setter writes its
own field and never byte 9 (R161); a getter writes RESULT only (R162). -/

namespace Sys2Proof.Machine

/-- What SET_TEMP stores: the clamped temperature minus 16 (R140). -/
def tempCode (a : Byte) : Byte :=
  BitVec.ofNat 8 (clamp a.toNat Config.tempMin Config.tempMax - Config.tempMin)

/-- What SET_MODE stores: one of the four codes, compared in all 8 bits, else MODE_COOL (R142, R163).
DESIGN CHOICE: 0 is stored as it is where the configuration gives a mode the code 0 (log entry 16). -/
def modeCode (p : Config.Params) (a : Byte) : Byte :=
  if a ∈ [p.modeFan, p.modeHeat, p.modeDry, p.modeCool].map (BitVec.setWidth 8) then a
  else p.modeCool.setWidth 8

/-- What SET_FAN stores: one of the four codes, compared in all 8 bits, else FAN_AUTO (R144, R163). -/
def fanCode (p : Config.Params) (a : Byte) : Byte :=
  if a ∈ [p.fanLow, p.fanMed, p.fanHigh, p.fanAuto].map (BitVec.setWidth 8) then a
  else p.fanAuto.setWidth 8

/-- Write a field and finish. -/
def setter (f : BitField) (v : Byte) (s : State) : Result := finishMem (s.mem.setField f v) s

/-- The toggle setter template (R146). -/
def toggleSetter (f : BitField) (a : Byte) (s : State) : Result := setter f (boolBit a) s

/-- Return a field as stored and finish (R147, R162). -/
def getter (f : BitField) (s : State) : Result := finishWith (zext16 (s.mem.field f)) s

/-- `STATE[a] <- (STATE[a] AND NOT mask) OR (e AND mask)` (R160). -/
def Memory.writeUnder (m : Memory) (a : Fin 10) (mask e : Byte) : Memory :=
  m.write a (underMask mask e (m.read a))

/-- The state buffer after SET_OFF_TIMER (R160): the bits of OFF_TIMER_ENCODE under OFF_TIMER_MASK in
bytes 4 to 7, then OffTimerEnable. -/
def offTimerMem (p : Config.Params) (b : Half) (m : Memory) : Memory :=
  let e := p.offTimerEncode b
  let mask := p.offTimerMask
  ((((m.writeUnder 4 mask[0] e[0]).writeUnder 5 mask[1] e[1]).writeUnder 6 mask[2] e[2]).writeUnder 7
    mask[3] e[3]).setField .offTimerEnable (if b = 0 then 0 else 1)

/-- SET_TEMP (R140). -/
def execSetTemp (a : Byte) (s : State) : Result := setter .temp (tempCode a) s

/-- GET_TEMP (R141): stored + 16, not clamped (R34). -/
def execGetTemp (s : State) : Result :=
  finishWith (zext16 (s.mem.field .temp) + BitVec.ofNat 16 Config.tempMin) s

/-- SET_MODE (R142). -/
def execSetMode (a : Byte) (s : State) : Result := setter .mode (modeCode Config.chosen a) s

/-- GET_MODE (R143). -/
def execGetMode (s : State) : Result := getter .mode s

/-- SET_FAN (R144). -/
def execSetFan (a : Byte) (s : State) : Result := setter .fanSpeed (fanCode Config.chosen a) s

/-- GET_FAN (R145). -/
def execGetFan (s : State) : Result := getter .fanSpeed s

/-- SET_POWER (R148). -/
def execSetPower (a : Byte) (s : State) : Result := toggleSetter .power a s

/-- GET_POWER (R149). -/
def execGetPower (s : State) : Result := getter .power s

/-- SET_WIFI (R150). -/
def execSetWifi (a : Byte) (s : State) : Result := toggleSetter .wifi a s

/-- GET_WIFI (R151). -/
def execGetWifi (s : State) : Result := getter .wifi s

/-- SET_TURBO (R152). -/
def execSetTurbo (a : Byte) (s : State) : Result := toggleSetter .turbo a s

/-- GET_TURBO (R153). -/
def execGetTurbo (s : State) : Result := getter .turbo s

/-- SET_ECONO (R154). -/
def execSetEcono (a : Byte) (s : State) : Result := toggleSetter .econo a s

/-- GET_ECONO (R155). -/
def execGetEcono (s : State) : Result := getter .econo s

/-- SET_LIGHT (R156). -/
def execSetLight (a : Byte) (s : State) : Result := toggleSetter .light a s

/-- GET_LIGHT (R157). -/
def execGetLight (s : State) : Result := getter .light s

/-- SET_SWINGH (R158). -/
def execSetSwingH (a : Byte) (s : State) : Result := toggleSetter .swingH a s

/-- GET_SWINGH (R159). -/
def execGetSwingH (s : State) : Result := getter .swingH s

/-- SET_OFF_TIMER (R160). -/
def execSetOffTimer (b : Half) (s : State) : Result :=
  finishMem (offTimerMem Config.chosen b s.mem) s

end Sys2Proof.Machine
end

