-- ==== Sys2Proof/Machine/Dispatch.lean ====
section
/-! DEFINITION. One arm per command: step 3 of spec/30_encoding.md R92. -/

namespace Sys2Proof.Machine

def exec (i : Instr) (s : State) : Host.Outcome State Fault Refusal :=
  match i with
  | .nop => Sys2Proof.Machine.execNop s
  | .reset => Sys2Proof.Machine.execReset s
  | .setRaw => Sys2Proof.Machine.execSetRaw s
  | .getRaw => Sys2Proof.Machine.execGetRaw s
  | .chkCalc => Sys2Proof.Machine.execChkCalc s
  | .chkValid => Sys2Proof.Machine.execChkValid s
  | .chkCalcIn => Sys2Proof.Machine.execChkCalcIn s
  | .chkValidIn => Sys2Proof.Machine.execChkValidIn s
  | .setTemp a => Sys2Proof.Machine.execSetTemp a s
  | .getTemp => Sys2Proof.Machine.execGetTemp s
  | .setMode a => Sys2Proof.Machine.execSetMode a s
  | .getMode => Sys2Proof.Machine.execGetMode s
  | .setFan a => Sys2Proof.Machine.execSetFan a s
  | .getFan => Sys2Proof.Machine.execGetFan s
  | .setPower a => Sys2Proof.Machine.execSetPower a s
  | .getPower => Sys2Proof.Machine.execGetPower s
  | .setWifi a => Sys2Proof.Machine.execSetWifi a s
  | .getWifi => Sys2Proof.Machine.execGetWifi s
  | .setTurbo a => Sys2Proof.Machine.execSetTurbo a s
  | .getTurbo => Sys2Proof.Machine.execGetTurbo s
  | .setEcono a => Sys2Proof.Machine.execSetEcono a s
  | .getEcono => Sys2Proof.Machine.execGetEcono s
  | .setLight a => Sys2Proof.Machine.execSetLight a s
  | .getLight => Sys2Proof.Machine.execGetLight s
  | .setSwingH a => Sys2Proof.Machine.execSetSwingH a s
  | .getSwingH => Sys2Proof.Machine.execGetSwingH s
  | .setOffTimer b => Sys2Proof.Machine.execSetOffTimer b s
  | .send b => Sys2Proof.Machine.execSend b s
  | .decode a b => Sys2Proof.Machine.execDecode a b s
  | .decodeStrict a b => Sys2Proof.Machine.execDecodeStrict a b s

end Sys2Proof.Machine
end

