-- ==== Sys2Proof/Machine/HostPort.lean ====
section
/-! DEFINITION. What the host does to the block between commands (spec/20_memory.md R72, R73): its
writes of the input ports, its reads of the output registers, and power-on reset. -/

namespace Sys2Proof.Machine

/-- What a host read gives. -/
inductive HostValue where
  | word (v : Nat)
  | records (l : List TxRecord)
  deriving DecidableEq, Repr

/-- The value a register shows the host; none where it holds no value (R39 to R42, R45, R49). -/
def State.hostRead (s : State) : HostReg → Option HostValue
  | .status => s.status.map fun v => .word v.toNat
  | .result => s.result.map fun v => .word v.toNat
  | .outByte i => s.outBytes[i].map fun v => .word v.toNat
  | .decBits => s.decBits.map fun v => .word v.toNat
  | .decByte i => s.decBytes[i].map fun v => .word v.toNat
  | .txLog => some (.records s.txLog)

/-- A host read changes nothing (R69), or is ReadUnwritten (R49, R234, R265; log entry 10). -/
def readRegister (r : HostReg) (s : State) : Result :=
  match s.hostRead r with
  | none => unwritten (.register r)
  | some _ => .next s

/-- IN[i] <- v (R43). -/
def writeIn (i : Fin Config.inCap) (v : Byte) (s : State) : Result := .next (s.withInByte i.val v)

/-- IN_LEN <- n (R43). -/
def writeInLen (n : Byte) (s : State) : Result := .next (s.withInLen n)

/-- RT[i] <- v (R44). -/
def writeRt (i : Fin Config.chosen.rtCap) (v : Sample) (s : State) : Result :=
  .next (s.withRtSample i.val v)

/-- RT_LEN <- n. A length above RT_CAP breaks a host duty and is ReadUnwritten of the first sample
that does not exist (R44, spec/70_reset_and_hazards.md R265; log entry 6). -/
def writeRtLen (p : Config.Params) (n : Half) (s : State) : Result :=
  if n.toNat ≤ p.rtCap then .next (s.withRtLen n) else unwritten (.rtSample p.rtCap)

/-- Power-on reset (spec/70_reset_and_hazards.md R260). What the host does next stays (log entry 14). -/
def powerOnReset (s : State) : Result := .next (State.reset.withHost s.host)

/-- An illegal command word (spec/30_encoding.md R86). -/
def illegalCommand (s : State) : Result := raise .illegalCommand s

end Sys2Proof.Machine
end

