-- ==== Sys2Proof/Machine/Step.lean ====
section
/-! DEFINITION. One step of the machine: the host's next action (spec/20_memory.md R72, R73). A
command word is decoded and carried out as spec/30_encoding.md R92 says; there is no fetch and no
program counter (spec/00_scope.md R5). With no action to come the block waits (log entry 2). -/

namespace Sys2Proof.Machine

/-- Carry out one command word (R92). -/
def issue (w : CommandWord) (s : State) : Host.Outcome State Fault Refusal :=
  match decode w with
  | .ok i => exec i s
  | .error _ => illegalCommand s

/-- What the block does at a host action. -/
def perform (act : HostAction) (s : State) : Host.Outcome State Fault Refusal :=
  match act with
  | .command w => issue w s
  | .writeIn i v => writeIn i v s
  | .writeInLen n => writeInLen n s
  | .writeRt i v => writeRt i v s
  | .writeRtLen n => writeRtLen Config.chosen n s
  | .read r => readRegister r s
  | .powerOn => powerOnReset s

/-- Take the host's next action and perform it; wait where there is none. -/
def step (s : State) : Host.Outcome State Fault Refusal :=
  match s.host with
  | [] => .next s
  | act :: rest => perform act (s.withHost rest)

/-- Let the host issue this word next (log entries 2 and 13). -/
def State.withFetchWord (s : State) (nbits w : Nat) : State :=
  s.withHost (.command (BitVec.ofNat 32 (w % 2 ^ nbits)) :: s.host)

end Sys2Proof.Machine
end

