-- ==== Sys2Proof/Machine/Assembler.lean ====
section
/-! DEFINITION. The assembler (spec/30_encoding.md R88 to R90): one line of text to one command. The
symbols assemble to the configuration, so the encoding of a line depends on it (R89). What the spec
leaves open of the text is in log entry 11. -/

namespace Sys2Proof.Machine

/-- A piece of source text. -/
abbrev Text := List Char

/-- Without the blanks at its two ends. -/
def Text.trim (t : Text) : Text :=
  ((t.dropWhile Char.isWhitespace).reverse.dropWhile Char.isWhitespace).reverse

/-- The value of a digit in base 10 or 16. -/
def digitValue (base : Nat) (c : Char) : Option Nat :=
  let v :=
    if '0' ≤ c ∧ c ≤ '9' then c.toNat - '0'.toNat
    else if 'a' ≤ c ∧ c ≤ 'f' then c.toNat - 'a'.toNat + 10
    else if 'A' ≤ c ∧ c ≤ 'F' then c.toNat - 'A'.toNat + 10
    else base
  if v < base then some v else none

/-- The number of a digit string, continuing from an accumulator. -/
def digitsFrom (base acc : Nat) : Text → Option Nat
  | [] => some acc
  | c :: rest => (digitValue base c).bind fun v => digitsFrom base (base * acc + v) rest

/-- A number, decimal or hexadecimal with `0x` (R88). -/
def number : Text → Option Nat
  | [] => none
  | '0' :: 'x' :: c :: rest => digitsFrom 16 0 (c :: rest)
  | c :: rest => digitsFrom 10 0 (c :: rest)

/-- A number as an operand of a width; a wider number is no operand (log entry 11). -/
def numberOf (bits : Nat) (t : Text) : Option (BitVec bits) :=
  (number t).bind fun n => if n < 2 ^ bits then some (BitVec.ofNat bits n) else none

/-- The toggle setters, whose operand may be `ON` or `OFF` (R89). -/
def toggleSetters : List String :=
  ["SET_POWER", "SET_WIFI", "SET_TURBO", "SET_ECONO", "SET_LIGHT", "SET_SWINGH"]

/-- The symbols a setter's operand may be, with their values (R89). -/
def symbols (p : Config.Params) (mnemonic : String) : List (String × Byte) :=
  if mnemonic == "SET_MODE" then
    [("FAN", p.modeFan.setWidth 8), ("HEAT", p.modeHeat.setWidth 8),
     ("DRY", p.modeDry.setWidth 8), ("COOL", p.modeCool.setWidth 8)]
  else if mnemonic == "SET_FAN" then
    [("LOW", p.fanLow.setWidth 8), ("MED", p.fanMed.setWidth 8),
     ("HIGH", p.fanHigh.setWidth 8), ("AUTO", p.fanAuto.setWidth 8)]
  else if toggleSetters.contains mnemonic then [("ON", 1), ("OFF", 0)]
  else []

/-- Operand A: a symbol of this mnemonic, or a number (R88, R89). -/
def operandText (p : Config.Params) (mnemonic : String) (t : Text) : Option Byte :=
  match (symbols p mnemonic).find? (fun s => s.1.toList == t) with
  | some s => some s.2
  | none => numberOf 8 t

/-- A command of an opcode row from its operand texts, A before B (R88). -/
def assembleRow (p : Config.Params) (r : Row) (operands : List Text) : Option Instr :=
  match r.format, operands with
  | .z, [] => some (r.build 0 0)
  | .a, [x] => (operandText p r.mnemonic x).map fun a => r.build a 0
  | .b, [y] => (numberOf 16 y).map fun b => r.build 0 b
  | .ab, [x, y] => (operandText p r.mnemonic x).bind fun a => (numberOf 16 y).map fun b => r.build a b
  | _, _ => none

/-- The pseudo-instructions without an operand (R90). -/
def plainPseudos : List (String × Instr) :=
  [("SEND", .send 0), ("POWER_ON", .setPower 1), ("POWER_OFF", .setPower 0),
   ("DISABLE_OFF_TIMER", .setOffTimer 0), ("FIX_CHECKSUM", .getRaw)]

/-- The pseudo-instructions with a sample offset, nbits being 80 (R90, spec/00_scope.md R6). -/
def offsetPseudos : List (String × (Half → Instr)) :=
  [("DECODE", .decode (BitVec.ofNat 8 Config.stateBits)),
   ("DECODE_STRICT", .decodeStrict (BitVec.ofNat 8 Config.stateBits))]

/-- A pseudo-instruction's expansion, one command (R90). -/
def assemblePseudo (mnemonic : Text) : List Text → Option Instr
  | [] => (plainPseudos.find? fun e => e.1.toList == mnemonic).map Prod.snd
  | [y] => (offsetPseudos.find? fun e => e.1.toList == mnemonic).bind fun e => (numberOf 16 y).map e.2
  | _ => none

/-- The operand texts of a line: separated by commas (R88). -/
def operandsOf (t : Text) : List Text :=
  if Text.trim t = [] then [] else (t.splitOn ',').map Text.trim

/-- Assemble one line: a mnemonic, then its operands; a comment starts with `;` (R88). -/
def assemble (p : Config.Params) (line : Text) : Option Instr :=
  let code := Text.trim (line.takeWhile (· != ';'))
  let mnemonic := code.takeWhile fun c => !c.isWhitespace
  let operands := operandsOf (code.drop mnemonic.length)
  match assemblePseudo mnemonic operands with
  | some i => some i
  | none =>
    (opcodeRows.find? fun r => r.mnemonic.toList == mnemonic).bind fun r => assembleRow p r operands

end Sys2Proof.Machine
end

