-- ==== Sys2Proof/Safety.lean ====
section
/-! DEFINITION. What counts as a safe run, in the terms claims use: the invariant that every step
keeps, the shape of a capture that the decoder accepts and the samples of it that a decode reads
(spec/44_timing_decoder.md R200 to R205), and the host's duties (spec/70_reset_and_hazards.md
R265). -/

namespace Sys2Proof.Machine

/-- The invariant of the machine. It says nothing about what the host does next. -/
structure State.Inv (s : State) : Prop where
  /-- The state buffer is in canonical form (spec/20_memory.md R60). -/
  mem_wf : s.mem.wf
  /-- IN is in canonical form, and only entries that exist are listed (spec/10_state.md R43). -/
  in_sorted : Cells.Sorted s.inPort
  in_exists : ∀ c ∈ s.inPort, c.1 < Config.inCap
  /-- RT is in canonical form, and only entries that exist are listed (R44). -/
  rt_sorted : Cells.Sorted s.rtPort
  rt_exists : ∀ c ∈ s.rtPort, c.1 < Config.chosen.rtCap
  /-- RT_LEN ≤ RT_CAP (R44). -/
  rtLen_le : s.rtLen.toNat ≤ Config.chosen.rtCap
  /-- STATUS never holds 7 to 15 (spec/60_exceptions.md R230). -/
  status_defined : ∀ v, s.status = some v → v.toNat ≤ 6
  /-- RESULT is zero in bits 15:8 (R40). -/
  result_low : ∀ v, s.result = some v → v.toNat < 256
  /-- OUT_BYTES holds nothing, or a whole snapshot that passes the checksum (R41,
  spec/40_buffer_ops.md R103). -/
  out_snapshot : (∀ i : Fin 10, s.outBytes[i] = none) ∨
    ∃ l : List Byte, l.length = 10 ∧ validChecksum l = true ∧ ∀ i : Fin 10, s.outBytes[i] = l[i.val]?
  /-- DEC_BITS and DEC_BYTES hold nothing, or a whole number of bytes: those below DEC_BITS/8 have a
  value, the others none (R42, spec/44_timing_decoder.md R207). -/
  dec_whole : (s.decBits = none ∧ ∀ i : Fin 10, s.decBytes[i] = none) ∨
    ∃ n : Byte, s.decBits = some n ∧ 8 ≤ n.toNat ∧ n.toNat ≤ 80 ∧ n.toNat % 8 = 0 ∧
      ∀ i : Fin 10, (s.decBytes[i].isSome ↔ i.val < n.toNat / 8)
  /-- Every record is the transmission of a state with a valid checksum (spec/43_timing_encoder.md
  R184, spec/44_timing_decoder.md R208). -/
  tx_valid : ∀ r ∈ s.txLog, ∃ (b : Half) (l : List Byte), l.length = 10 ∧ validChecksum l = true ∧
    r = sendRecord Config.chosen b l

/-- The samples `m`, `sp` are a mark and a space that carry `bit` (R204). -/
def CellCarries (p : Config.Params) (m sp : Nat) (bit : Bool) : Prop :=
  p.matchMark m p.bitMarkUs = true ∧ p.matchSpace sp p.oneSpaceUs = bit ∧
    (bit = false → p.matchSpace sp p.zeroSpaceUs = true)

/-- Cell j of the samples `rt` from `off` on carries a bit (R204). -/
def CellAt (p : Config.Params) (rt : Nat → Option Nat) (off j : Nat) (bit : Bool) : Prop :=
  ∃ m sp, rt (off + 2 * j) = some m ∧ rt (off + 2 * j + 1) = some sp ∧ CellCarries p m sp bit

/-- The first n cells from `off` on all carry a bit. -/
def CellsCarry (p : Config.Params) (rt : Nat → Option Nat) (off n : Nat) : Prop :=
  ∀ j < n, ∃ bit, CellAt p rt off j bit

/-- The samples from `off` on carry the bytes: cell j carries bit 7 − (j mod 8) of byte j div 8
(R200, R204, spec/20_memory.md R64). -/
def CarriesBytes (p : Config.Params) (rt : Nat → Option Nat) (off : Nat) (bytes : List Byte) : Prop :=
  ∀ j < 8 * bytes.length, CellAt p rt off j ((bytes.getD (j / 8) 0).getLsbD (7 - j % 8))

/-- The sample after `n` cells is a footer mark, if the configuration has one (R205). -/
def FooterMatches (p : Config.Params) (rt : Nat → Option Nat) (off n : Nat) : Prop :=
  p.footerMarkUs > 0 → ∃ d, rt (off + 2 * n) = some d ∧ p.matchMark d p.footerMarkUs = true

/-- The samples after `n` cells are the footer mark, if there is one, and, if RT goes on, a gap
(R205). -/
def EndMatches (p : Config.Params) (rt : Nat → Option Nat) (rtLen off n : Nat) : Prop :=
  FooterMatches p rt off n ∧
    (off + 2 * n + p.footerLen < rtLen →
      ∃ g, rt (off + 2 * n + p.footerLen) = some g ∧ p.matchAtLeast g p.gapUs = true)

/-- The decode passes the checks of R203. -/
def DecodeJob.Passes (p : Config.Params) (j : DecodeJob) : Prop :=
  ((j.strict = true → j.nbits = 80) ∧ 8 ≤ j.nbits ∧ j.nbits ≤ 80 ∧ j.nbits % 8 = 0) ∧
    j.off + j.need p ≤ j.rtLen

/-- The samples that a decode reads: those of the cells up to the first that carries no bit, both of
each (log entry 7); where all cells carry bits, the footer mark; where that matches, the gap, if RT
goes on (R203, R204, R205). -/
inductive DecodeJob.Reads (p : Config.Params) (rt : Nat → Option Nat) (j : DecodeJob) : Nat → Prop where
  | mark {k : Nat} (hp : j.Passes p) (hk : k < j.nbits) (hc : CellsCarry p rt j.off k) :
      j.Reads p rt (j.off + 2 * k)
  | space {k : Nat} (hp : j.Passes p) (hk : k < j.nbits) (hc : CellsCarry p rt j.off k) :
      j.Reads p rt (j.off + 2 * k + 1)
  | footer (hp : j.Passes p) (hc : CellsCarry p rt j.off j.nbits) (hf : p.footerMarkUs > 0) :
      j.Reads p rt (j.off + 2 * j.nbits)
  | gap (hp : j.Passes p) (hc : CellsCarry p rt j.off j.nbits)
      (hf : FooterMatches p rt j.off j.nbits) (hl : j.off + j.need p < j.rtLen) :
      j.Reads p rt (j.off + j.need p)

/-- The host wrote IN[0..n-1] (R265, duty 1). -/
def State.InWritten (s : State) (n : Nat) : Prop := ∀ i < n, (s.inByte? i).isSome

/-- The host wrote every sample that a decode reads (R265, duty 2). -/
def State.RtWritten (s : State) (j : DecodeJob) : Prop :=
  ∀ i, j.Reads Config.chosen s.rtSample? i → (s.rtSample? i).isSome

/-- The host's duties before a command (R265, duties 1 and 2). SET_RAW reads IN where IN_LEN is 10
(spec/40_buffer_ops.md R102). -/
def DutiesMet (i : Instr) (s : State) : Prop :=
  match i with
  | .setRaw => s.inLen = 10 → s.InWritten 10
  | .chkValidIn => s.InWritten s.inLen.toNat
  | .chkCalcIn => s.InWritten (s.inLen.toNat - 1)
  | .decode a b => s.RtWritten (s.decodeJob false a b)
  | .decodeStrict a b => s.RtWritten (s.decodeJob true a b)
  | .nop | .reset | .getRaw | .chkCalc | .chkValid => True
  | .setTemp _ | .setMode _ | .setFan _ | .setPower _ | .setWifi _ | .setTurbo _ | .setEcono _
  | .setLight _ | .setSwingH _ | .setOffTimer _ | .send _ => True
  | .getTemp | .getMode | .getFan | .getPower | .getWifi | .getTurbo | .getEcono | .getLight
  | .getSwingH => True

/-- The host's duties before an action (R265, all four). -/
def ActionDutiesMet (act : HostAction) (s : State) : Prop :=
  match act with
  | .command w => ∀ i, decode w = .ok i → DutiesMet i s
  | .writeIn _ _ | .writeInLen _ | .writeRt _ _ | .powerOn => True
  | .writeRtLen n => n.toNat ≤ Config.chosen.rtCap
  | .read r => s.hostRead r ≠ none

/-- A step stops with a fault. -/
def Faults (s : State) : Prop := ∃ f, step s = .fault f

/-- The states that some host can bring the block into after power-on reset. -/
inductive Reachable : State → Prop where
  | powerOn (acts : List HostAction) : Reachable (State.reset.withHost acts)
  | step {s t : State} : Reachable s → Machine.step s = .next t → Reachable t

end Sys2Proof.Machine
end

