-- ==== Sys2Proof/Certificates/Slice0/Obligations.lean ====
section
/-! DEFINITION. The statements for the provers: what the rules of spec/ say the commands and the
machine do. A statement about a command names the whole next state: every part not written after
`with` is unchanged. -/

namespace Sys2Proof.Claim

open Sys2Proof.Machine

/-- The sum of the bytes of a list. -/
def byteSum (l : List Byte) : Nat := (l.map BitVec.toNat).sum

/-- The sum of STATE[0..8]. -/
def payloadSum (m : Memory) : Nat :=
  (m.read 0).toNat + (m.read 1).toNat + (m.read 2).toNat + (m.read 3).toNat + (m.read 4).toNat +
    (m.read 5).toNat + (m.read 6).toNat + (m.read 7).toNat + (m.read 8).toNat

/-- Format Z: the word with this OP is the command where A and B are zero, else it is illegal and
writes STATUS = 6 only (spec/30_encoding.md R82, R84, R86). -/
def EncodedZ (op : Byte) (i : Instr) : Prop :=
  ∀ (a : Byte) (b : Half) (s : State), issue (pack op a b) s =
    if a = 0 ∧ b = 0 then exec i s else .next { s with status := some 6 }

/-- Format A: as `EncodedZ`, with operand A. -/
def EncodedA (op : Byte) (i : Byte → Instr) : Prop :=
  ∀ (a : Byte) (b : Half) (s : State), issue (pack op a b) s =
    if b = 0 then exec (i a) s else .next { s with status := some 6 }

/-- Format B: as `EncodedZ`, with operand B. -/
def EncodedB (op : Byte) (i : Half → Instr) : Prop :=
  ∀ (a : Byte) (b : Half) (s : State), issue (pack op a b) s =
    if a = 0 then exec (i b) s else .next { s with status := some 6 }

/-- Format AB: every word with this OP is the command. -/
def EncodedAB (op : Byte) (i : Byte → Half → Instr) : Prop :=
  ∀ (a : Byte) (b : Half) (s : State), issue (pack op a b) s = exec (i a b) s

/-- A toggle setter at this OP stores bool(a) in this bit of STATE and changes no other bit
(spec/42_field_access.md R146). -/
def SetsToggle (op : Byte) (i : Byte → Instr) (byte : Fin 10) (bit : Nat) : Prop :=
  EncodedA op i ∧ ∀ (a : Byte) (s : State), ∃ m : Memory,
    exec (i a) s = .next { s with mem := m, status := some 0 } ∧
    ∀ (x : Fin 10) (k : Nat), (m.read x).getLsbD k =
      if x = byte ∧ k = bit then decide (a ≠ 0) else (s.mem.read x).getLsbD k

/-- A toggle getter at this OP returns this bit of STATE (spec/42_field_access.md R147). -/
def GetsToggle (op : Byte) (i : Instr) (byte : Fin 10) (bit : Nat) : Prop :=
  EncodedZ op i ∧ ∀ s : State, exec i s =
    .next { s with result := some (if (s.mem.read byte).getLsbD bit then 1 else 0), status := some 0 }

/-- The bits of a byte of STATE that no operation gives meaning to: the rows of spec/10_state.md R31
that are reserved, unlisted or unused by accessors (R32). -/
def passThrough : Fin 10 → Byte :=
  fun a => match a with
  | 0 => 0xFE
  | 1 => 0x10
  | 2 => 0x57
  | 3 => 0xB0
  | 4 => ~~~Config.chosen.offTimerMask[0]
  | 5 => ~~~Config.chosen.offTimerMask[1]
  | 6 => ~~~Config.chosen.offTimerMask[2]
  | 7 => ~~~Config.chosen.offTimerMask[3]
  | 8 => 0x9F
  | 9 => 0x00

/-- DECODE a, b, or DECODE_STRICT 80, b. -/
def IsDecode (i : Instr) (a : Byte) (b : Half) : Prop :=
  i = .decode a b ∨ (a = 80 ∧ i = .decodeStrict a b)

/-- A decode of `a` bits at `b` gets past the checks of spec/44_timing_decoder.md R203. -/
def CanDecode (p : Config.Params) (s : State) (a : Byte) (b : Half) : Prop :=
  8 ≤ a.toNat ∧ a.toNat ≤ 80 ∧ a.toNat % 8 = 0 ∧
    b.toNat + (2 * a.toNat + if p.footerMarkUs > 0 then 1 else 0) ≤ s.rtLen.toNat

/-- All cells before the end carry a bit, and the footer mark or the gap after them does not match
(R205): the footer mark, if there is one, then the gap, if RT goes on. -/
def EndFails (p : Config.Params) (s : State) (a : Byte) (b : Half) : Prop :=
  CellsCarry p s.rtSample? b.toNat a.toNat ∧
    ((p.footerMarkUs > 0 ∧ ∃ d, s.rtSample? (b.toNat + 2 * a.toNat) = some d ∧
        p.matchMark d p.footerMarkUs = false) ∨
      (FooterMatches p s.rtSample? b.toNat a.toNat ∧
        b.toNat + 2 * a.toNat + p.footerLen < s.rtLen.toNat ∧
        ∃ g, s.rtSample? (b.toNat + 2 * a.toNat + p.footerLen) = some g ∧
          p.matchAtLeast g p.gapUs = false))

/-- All cells before the end carry a bit, and the sample that the decode comes to next, the footer mark
or the gap, was never written. -/
def EndUnwritten (p : Config.Params) (s : State) (a : Byte) (b : Half) : Prop :=
  CellsCarry p s.rtSample? b.toNat a.toNat ∧
    ((p.footerMarkUs > 0 ∧ s.rtSample? (b.toNat + 2 * a.toNat) = none) ∨
      (FooterMatches p s.rtSample? b.toNat a.toNat ∧
        b.toNat + 2 * a.toNat + p.footerLen < s.rtLen.toNat ∧
        s.rtSample? (b.toNat + 2 * a.toNat + p.footerLen) = none))

/-- RT[off..] holds these durations, as far as RT_LEN goes. -/
def HoldsDurations (s : State) (off : Nat) (pulses : List Pulse) : Prop :=
  ∀ k < pulses.length, off + k < s.rtLen.toNat →
    s.rtSample? (off + k) = (pulses[k]?).map Pulse.durationUs

/-- The pulses that the arguments of the transmission primitive ask for, with the footer mark that
spec/00_scope.md R9 puts before the gap, unless its duration is 0. -/
def askedPulses (footerUs : Nat) (q : PrimitiveArgs) : List Pulse :=
  (List.range (1 + q.repeatCount)).flatMap fun _ =>
    ((List.range q.bitCount).flatMap fun j =>
      [⟨.mark, q.markUs⟩, ⟨.space,
        if (q.payload.getD (j / 8) 0).getLsbD (if q.msbFirst then 7 - j % 8 else j % 8)
        then q.oneSpaceUs else q.zeroSpaceUs⟩]) ++
      (if footerUs = 0 then [] else [⟨.mark, footerUs⟩]) ++ [⟨.space, q.trailingGapUs⟩]

/-- After a decode of these bytes: DEC_BITS, DEC_BYTES and STATUS, and nothing else (R207). -/
def decodedState (s : State) (a : Byte) (bytes : List Byte) : State :=
  { s with decBits := some a, decBytes := Vector.ofFn fun k => bytes[k.val]?, status := some 0 }

end Sys2Proof.Claim

open Sys2Proof Sys2Proof.Machine Sys2Proof.Claim

/-! ### Encoding -/

/-- R82, R84: no bit of an encoding is dropped. -/
def Obligations.DecodeOfEncodeIsTheCommand : Prop :=
  ∀ i : Instr, decode (encode i) = .ok i ∧ decodeTableWord 32 (encode i).toNat = some i

/-- R84, R86: a command has one word. -/
def Obligations.DecodedWordIsTheEncodingOfItsCommand : Prop :=
  ∀ (w : CommandWord) (i : Instr), decode w = .ok i → encode i = w

/-- R82. -/
def Obligations.WordIsACommandExactlyWhenItMatchesARow : Prop :=
  Format.z.mask = 0xFFFFFFFF ∧ Format.a.mask = 0xFFFF00FF ∧ Format.b.mask = 0x0000FFFF ∧
  Format.ab.mask = 0x000000FF ∧
  ∀ (w : CommandWord) (r : Row), r ∈ opcodeRows →
    (w &&& r.format.mask = r.op.setWidth 32 ↔ decode w = .ok (r.build (aField w) (bField w)))

/-- R92: the decoder is total, and the words it gives a command are the legal ones of R86. -/
def Obligations.DecoderRejectsExactlyTheIllegalWords : Prop :=
  ∀ w : CommandWord, (∃ i, decode w = .ok i) ↔ CommandWord.wellFormed w = true

/-- R86: the undefined opcodes and the nonzero must-be-zero fields; an illegal word writes STATUS = 6
and nothing else. -/
def Obligations.IllegalWordWritesOnlyIllegalCommand : Prop :=
  (∀ w : CommandWord, CommandWord.wellFormed w = false ↔
    ((0x08 ≤ (opField w).toNat ∧ (opField w).toNat ≤ 0x0F) ∨
      (0x23 ≤ (opField w).toNat ∧ (opField w).toNat ≤ 0x2F) ∨ 0x33 ≤ (opField w).toNat) ∨
    ((opField w).toNat ∈ Format.z.opcodes ++ Format.b.opcodes ∧ aField w ≠ 0) ∨
    ((opField w).toNat ∈ Format.z.opcodes ++ Format.a.opcodes ∧ bField w ≠ 0)) ∧
  ∀ (s : State) (w : CommandWord), CommandWord.wellFormed w = false →
    issue w s = .next { s with status := some 6 }

/-- R91, and words written out from R82 and R84. -/
def Obligations.WorkedEncodingsDecode : Prop :=
  encode (.setTemp 26) = 0x00001A10 ∧ encode (.setOffTimer 90) = 0x005A0022 ∧
  encode (.send 2) = 0x00020030 ∧ encode (.decode 80 1) = 0x00015031 ∧
  encode (.decodeStrict 80 0) = 0x00005032 ∧ encode .getRaw = 0x00000003 ∧
  decode 0x00000110 = .ok (.setTemp 1) ∧ decode 0x00010003 = .error (.mustBeZero 0x03) ∧
  decode 0b00000000000000000000000000000101 = .ok .chkValid ∧
  decode 0b00000000000000000110001100010010 = .ok (.setMode 0x63) ∧
  decode 0b00000000101000100101000000110010 = .ok (.decodeStrict 80 162)

/-! ### The step -/

/-- R92, R72: a step runs the decoded command, on the state with the command taken from the host's
coming actions (log entry 2); an illegal word is issued there too. -/
def Obligations.StepRunsTheDecodedCommand : Prop :=
  ∀ (s : State) (w : CommandWord) (rest : List HostAction), s.host = .command w :: rest →
    (∀ i, decode w = .ok i → step s = exec i { s with host := rest }) ∧
    (∀ e, decode w = .error e → step s = .next { s with host := rest, status := some 6 })

/-- R43, R44, R73: what a host write changes, and that the next command sees it. -/
def Obligations.HostWritesReachThePorts : Prop :=
  ∀ (s : State) (rest : List HostAction),
    (∀ i v, s.host = .writeIn i v :: rest → ∃ t, step s = .next t ∧
      t = { s with inPort := t.inPort, host := rest } ∧
      ∀ j, t.inByte? j = if j = i.val then some v else s.inByte? j) ∧
    (∀ n, s.host = .writeInLen n :: rest → step s = .next { s with inLen := n, host := rest }) ∧
    (∀ i v, s.host = .writeRt i v :: rest → ∃ t, step s = .next t ∧
      t = { s with rtPort := t.rtPort, host := rest } ∧
      ∀ j, t.rtSample? j = if j = i.val then some v.toNat else s.rtSample? j) ∧
    (∀ n, s.host = .writeRtLen n :: rest → n.toNat ≤ Config.chosen.rtCap →
      step s = .next { s with rtLen := n, host := rest })

/-- R48, R260, R261. That the host's coming actions stay is log entry 14. -/
def Obligations.PowerOnResetGivesTheResetTable : Prop :=
  ∀ (s : State) (rest : List HostAction), s.host = .powerOn :: rest → ∃ t, step s = .next t ∧
    (∀ a, t.mem.read a = 0x00) ∧ t.status = none ∧ t.result = none ∧
    (∀ i : Fin 10, t.outBytes[i] = none) ∧ t.decBits = none ∧ (∀ i : Fin 10, t.decBytes[i] = none) ∧
    t.inLen = 0 ∧ (∀ i, t.inByte? i = none) ∧ t.rtLen = 0 ∧ (∀ i, t.rtSample? i = none) ∧
    t.txLog = [] ∧ t.host = rest ∧ (t.mem.read 9).toNat ≠ 255 - payloadSum t.mem % 256

/-- R49, R69, R234: a host read of a register that holds no value is ReadUnwritten, any other
changes nothing. That the step takes the read from the host's coming actions is the model's choice
(log entries 2, 10). -/
def Obligations.HostReadFaultsExactlyOnNoValue : Prop :=
  ∀ (s : State) (r : HostReg) (rest : List HostAction), s.host = .read r :: rest →
    step s = (match r with
      | .status => if s.status = none then unwritten (.register r) else .next { s with host := rest }
      | .result => if s.result = none then unwritten (.register r) else .next { s with host := rest }
      | .outByte i =>
        if s.outBytes[i] = none then unwritten (.register r) else .next { s with host := rest }
      | .decBits => if s.decBits = none then unwritten (.register r) else .next { s with host := rest }
      | .decByte i =>
        if s.decBytes[i] = none then unwritten (.register r) else .next { s with host := rest }
      | .txLog => .next { s with host := rest })

/-- R265: a host that keeps its duties never meets a fault, and one that breaks a duty meets
ReadUnwritten. That RT_LEN above RT_CAP stops at the host's write is log entry 6; that a decode reads
both samples of a cell before it matches them is log entry 7. -/
def Obligations.HostDutiesRuleOutFaults : Prop :=
  ∀ (s : State) (act : HostAction) (rest : List HostAction), s.host = act :: rest →
    (ActionDutiesMet act { s with host := rest } → ∃ t, step s = .next t) ∧
    (¬ ActionDutiesMet act { s with host := rest } → ∃ loc, step s = .fault (.readUnwritten loc))

/-! ### Invariants and whole-machine rules -/

/-- R48: the invariant holds after power-on reset, whatever the host does next. -/
def Obligations.InvariantHoldsAfterReset : Prop :=
  ∀ acts : List HostAction, (State.reset.withHost acts).Inv

/-- R41 to R44, R103, R184, R207, R230: every step keeps the invariant. -/
def Obligations.EveryStepKeepsTheInvariant : Prop :=
  ∀ s t : State, s.Inv → step s = .next t → t.Inv

/-- R231, R68, R230: of a command word, legal or not, and of a command. -/
def Obligations.FailureWritesOnlyStatus : Prop :=
  (∀ (w : CommandWord) (s t : State), issue w s = .next t →
    ∃ c : BitVec 4, t.status = some c ∧ c.toNat ≤ 6 ∧ (c ≠ 0 → t = { s with status := some c })) ∧
  ∀ (i : Instr) (s t : State), exec i s = .next t →
    ∃ c : BitVec 4, t.status = some c ∧ c.toNat ≤ 5 ∧ (c ≠ 0 → t = { s with status := some c })

/-- R30, R40 to R45: which commands write which part of the state. -/
def Obligations.EachPartHasItsOwnWriters : Prop :=
  ∀ (i : Instr) (s t : State), exec i s = .next t →
    (t.result ≠ s.result → i ∈ [.chkCalc, .chkValid, .chkCalcIn, .chkValidIn, .getTemp, .getMode,
      .getFan, .getPower, .getWifi, .getTurbo, .getEcono, .getLight, .getSwingH] ∧
      ∃ v, t.result = some v ∧ v.toNat < 256 ∧ t.status = some 0) ∧
    (t.outBytes ≠ s.outBytes → i = .getRaw) ∧
    (t.decBits ≠ s.decBits ∨ t.decBytes ≠ s.decBytes →
      (∃ a b, i = .decode a b ∨ i = .decodeStrict a b) ∧ t.status = some 0 ∧ t.mem = s.mem) ∧
    (t.txLog ≠ s.txLog → (∃ b, i = .send b) ∧ ∃ r, t.txLog = s.txLog ++ [r]) ∧
    (t.mem ≠ s.mem → i ∈ [.reset, .setRaw, .getRaw] ∨ (∃ b, i = .send b ∨ i = .setOffTimer b) ∨
      ∃ a, i ∈ [.setTemp a, .setMode a, .setFan a, .setPower a, .setWifi a, .setTurbo a,
        .setEcono a, .setLight a, .setSwingH a]) ∧
    t.inLen = s.inLen ∧ t.inPort = s.inPort ∧ t.rtLen = s.rtLen ∧ t.rtPort = s.rtPort ∧
    t.host = s.host

/-- R121, R161: only RESET, SET_RAW, GET_RAW and SEND write STATE[9]. -/
def Obligations.OtherCommandsKeepTheChecksumByte : Prop :=
  ∀ (i : Instr) (s t : State), exec i s = .next t → i ∉ [.reset, .setRaw, .getRaw] →
    (∀ b, i ≠ .send b) → t.mem.read 9 = s.mem.read 9

/-- R32. -/
def Obligations.ReservedBitsPassThrough : Prop :=
  (∀ (i : Instr) (s t : State), exec i s = .next t → i ≠ .reset → i ≠ .setRaw →
    ∀ a, t.mem.read a &&& passThrough a = s.mem.read a &&& passThrough a) ∧
  (∀ s t : State, exec .reset s = .next t → ∀ a, t.mem.read a &&& passThrough a = 0) ∧
  (∀ s t : State, exec .setRaw s = .next t → t.status = some 0 →
    ∀ a : Fin 10, ∃ v, s.inByte? a.val = some v ∧
      t.mem.read a &&& passThrough a = v &&& passThrough a) ∧
  (∀ s t : State, exec .getRaw s = .next t → ∀ a : Fin 10, ∃ v, t.outBytes[a] = some v ∧
    v &&& passThrough a = s.mem.read a &&& passThrough a)

/-- R265, R234: a command whose IN bytes and RT samples, those it reads, the host wrote has a next
state, and no other command has one; no command is refused, and the only fault is ReadUnwritten of an
input port below its length. That a decode reads both samples of a cell before it matches them is log
entry 7. -/
def Obligations.CommandsEndUnderHostDuties : Prop :=
  ∀ (i : Instr) (s : State),
    (DutiesMet i s ↔ ∃ t, exec i s = .next t) ∧
    ((∃ t, exec i s = .next t) ∨
      (∃ k < s.inLen.toNat, s.inByte? k = none ∧ exec i s = unwritten (.inByte k)) ∨
      ∃ k < s.rtLen.toNat, s.rtSample? k = none ∧ exec i s = unwritten (.rtSample k))

/-- R43, R44, R61: a command reads IN below IN_LEN and RT below RT_LEN only, and no command writes
them: on two states that differ above those lengths it does the same. -/
def Obligations.CommandsSeePortsOnlyBelowTheirLength : Prop :=
  ∀ (i : Instr) (s s' : State), s' = { s with inPort := s'.inPort, rtPort := s'.rtPort } →
    (∀ k < s.inLen.toNat, s'.inByte? k = s.inByte? k) →
    (∀ k < s.rtLen.toNat, s'.rtSample? k = s.rtSample? k) →
    (∀ f, exec i s = .fault f → exec i s' = .fault f) ∧
    (∀ t, exec i s = .next t →
      exec i s' = .next { t with inPort := s'.inPort, rtPort := s'.rtPort })

/-! ### State-buffer commands -/

/-- R100. -/
def Obligations.NopOnlyReportsSuccess : Prop :=
  EncodedZ 0x00 .nop ∧ ∀ s : State, exec .nop s = .next { s with status := some 0 }

/-- R101. -/
def Obligations.ResetCommandZeroesOnlyTheStateBuffer : Prop :=
  EncodedZ 0x01 .reset ∧ ∀ s : State, ∃ m : Memory,
    exec .reset s = .next { s with mem := m, status := some 0 } ∧ (∀ a, m.read a = 0x00) ∧
    ∀ t, exec .reset s = .next t →
      exec .chkValid t = .next { t with result := some 0, status := some 0 }

/-- R102. -/
def Obligations.SetRawCopiesExactlyTenBytes : Prop :=
  EncodedZ 0x02 .setRaw ∧
  (∀ s : State, s.inLen ≠ 10 → exec .setRaw s = .next { s with status := some 1 }) ∧
  (∀ (s : State) (f : Fin 10 → Byte), s.inLen = 10 → (∀ i : Fin 10, s.inByte? i.val = some (f i)) →
    ∃ m : Memory, exec .setRaw s = .next { s with mem := m, status := some 0 } ∧
      ∀ a, m.read a = f a) ∧
  (∀ (s : State) (i : Nat), s.inLen = 10 → i < 10 → s.inByte? i = none →
    ∃ loc, exec .setRaw s = .fault (.readUnwritten loc))

/-- R103. -/
def Obligations.GetRawRecomputesThenSnapshots : Prop :=
  EncodedZ 0x03 .getRaw ∧ ∀ s : State, ∃ m : Memory,
    exec .getRaw s =
      .next { s with mem := m, outBytes := Vector.ofFn fun i => some (m.read i), status := some 0 } ∧
    (∀ a, a ≠ 9 → m.read a = s.mem.read a) ∧
    (m.read 9).toNat = 255 - payloadSum s.mem % 256 ∧ validChecksum m.bytes = true ∧
    ∀ t, exec .getRaw s = .next t → exec .getRaw t = .next t

/-- R69, R121: GET_RAW twice is GET_RAW once, and a SEND after a SEND leaves STATE alone. -/
def Obligations.RecomputingTwiceIsRecomputingOnce : Prop :=
  ∀ s t : State,
    (exec .getRaw s = .next t → exec .getRaw t = .next t) ∧
    (∀ b c, exec (.send b) s = .next t → ∃ u, exec (.send c) t = .next u ∧ u.mem = t.mem)

/-! ### Checksum -/

/-- R120, R126, R127: of a byte list, and of the state buffer. -/
def Obligations.ChecksumComplementsThePayloadSum : Prop :=
  calcChecksum [] = 0 ∧ validChecksum [] = true ∧
  (∀ (payload : List Byte) (v w : Byte),
    (calcChecksum (payload ++ [v])).toNat = 255 - byteSum payload % 256 ∧
    calcChecksum (payload ++ [v]) = calcChecksum (payload ++ [w]) ∧
    (validChecksum (payload ++ [v]) = true ↔ v = calcChecksum (payload ++ [v]))) ∧
  ∀ m : Memory, m.ck = calcChecksum m.bytes ∧ m.ck.toNat = 255 - payloadSum m % 256 ∧
    (validChecksum m.bytes = true ↔ m.read 9 = m.ck)

/-- R122. -/
def Obligations.ChkCalcReturnsTheStateChecksum : Prop :=
  EncodedZ 0x04 .chkCalc ∧ ∀ s : State, ∃ v : Half,
    exec .chkCalc s = .next { s with result := some v, status := some 0 } ∧
    v.toNat = 255 - payloadSum s.mem % 256

/-- R123; right after GET_RAW or SEND the result is 1. -/
def Obligations.ChkValidComparesByteNine : Prop :=
  EncodedZ 0x05 .chkValid ∧
  (∀ s : State, exec .chkValid s = .next { s with
    result := some (if (s.mem.read 9).toNat = 255 - payloadSum s.mem % 256 then 1 else 0),
    status := some 0 }) ∧
  ∀ (i : Instr) (s t : State), (i = .getRaw ∨ ∃ b, i = .send b) → exec i s = .next t →
    exec .chkValid t = .next { t with result := some 1, status := some 0 }

/-- R124. -/
def Obligations.ChkCalcInChecksTheInputPayload : Prop :=
  EncodedZ 0x06 .chkCalcIn ∧
  (∀ (s : State) (payload : List Byte), payload.length = s.inLen.toNat - 1 →
    (∀ i < payload.length, s.inByte? i = payload[i]?) → ∃ v : Half,
    exec .chkCalcIn s = .next { s with result := some v, status := some 0 } ∧
    v.toNat = if s.inLen = 0 then 0 else 255 - byteSum payload % 256) ∧
  (∀ (s : State) (i : Nat), i + 1 < s.inLen.toNat → s.inByte? i = none →
    ∃ loc, exec .chkCalcIn s = .fault (.readUnwritten loc))

/-- R125. -/
def Obligations.ChkValidInComparesTheLastInputByte : Prop :=
  EncodedZ 0x07 .chkValidIn ∧
  (∀ s : State, s.inLen = 0 →
    exec .chkValidIn s = .next { s with result := some 1, status := some 0 }) ∧
  (∀ (s : State) (payload : List Byte) (last : Byte), s.inLen.toNat = payload.length + 1 →
    (∀ i < payload.length, s.inByte? i = payload[i]?) → s.inByte? payload.length = some last →
    exec .chkValidIn s = .next { s with
      result := some (if last.toNat = 255 - byteSum payload % 256 then 1 else 0),
      status := some 0 }) ∧
  (∀ (s : State) (i : Nat), i < s.inLen.toNat → s.inByte? i = none →
    ∃ loc, exec .chkValidIn s = .fault (.readUnwritten loc))

/-! ### Field access -/

/-- R140. -/
def Obligations.SetTempStoresTheClampedTemperature : Prop :=
  EncodedA 0x10 .setTemp ∧ ∀ (a : Byte) (s : State), ∃ m : Memory,
    exec (.setTemp a) s = .next { s with mem := m, status := some 0 } ∧
    (m.read 3).toNat % 16 = (if a.toNat < 16 then 0 else if 30 < a.toNat then 14 else a.toNat - 16) ∧
    (m.read 3).toNat / 16 = (s.mem.read 3).toNat / 16 ∧
    ∀ x, x ≠ 3 → m.read x = s.mem.read x

/-- R141. -/
def Obligations.GetTempReturnsStoredPlusSixteen : Prop :=
  EncodedZ 0x11 .getTemp ∧
  (∀ s : State, ∃ v : Half, exec .getTemp s = .next { s with result := some v, status := some 0 } ∧
    v.toNat = (s.mem.read 3).toNat % 16 + 16) ∧
  (∀ (a : Byte) (s t : State), exec (.setTemp a) s = .next t → ∃ v : Half,
    exec .getTemp t = .next { t with result := some v, status := some 0 } ∧
    v.toNat = if a.toNat < 16 then 16 else if 30 < a.toNat then 30 else a.toNat)

/-- Derived from the pseudocode of R142, R12 and R163, for whatever the four OPEN codes are. 0 is stored
as MODE_COOL unless a mode has the code 0: R142's corner case counts 0 outside the four, and that the
configuration allows such a code is the model's choice (log entry 16). -/
def Obligations.SetModeStoresACodeOrCool : Prop :=
  EncodedA 0x12 .setMode ∧ ∀ (a : Byte) (s : State), ∃ m : Memory,
    exec (.setMode a) s = .next { s with mem := m, status := some 0 } ∧
    (m.read 1).toNat % 16 =
      (if a.toNat = Config.chosen.modeFan.toNat ∨ a.toNat = Config.chosen.modeHeat.toNat ∨
        a.toNat = Config.chosen.modeDry.toNat ∨ a.toNat = Config.chosen.modeCool.toNat
      then a.toNat else Config.chosen.modeCool.toNat) ∧
    (m.read 1).toNat / 16 = (s.mem.read 1).toNat / 16 ∧
    ∀ x, x ≠ 1 → m.read x = s.mem.read x

/-- R144, R163, for whatever the four OPEN codes are. -/
def Obligations.SetFanStoresACodeOrAuto : Prop :=
  EncodedA 0x14 .setFan ∧ ∀ (a : Byte) (s : State), ∃ m : Memory,
    exec (.setFan a) s = .next { s with mem := m, status := some 0 } ∧
    (m.read 1).toNat / 32 =
      (if a.toNat = Config.chosen.fanLow.toNat ∨ a.toNat = Config.chosen.fanMed.toNat ∨
        a.toNat = Config.chosen.fanHigh.toNat ∨ a.toNat = Config.chosen.fanAuto.toNat
      then a.toNat else Config.chosen.fanAuto.toNat) ∧
    (m.read 1).toNat % 32 = (s.mem.read 1).toNat % 32 ∧
    ∀ x, x ≠ 1 → m.read x = s.mem.read x

/-- R143, R145. -/
def Obligations.GetModeAndGetFanReturnTheFieldAsStored : Prop :=
  EncodedZ 0x13 .getMode ∧ EncodedZ 0x15 .getFan ∧ ∀ s : State, ∃ v w : Half,
    exec .getMode s = .next { s with result := some v, status := some 0 } ∧
    v.toNat = (s.mem.read 1).toNat % 16 ∧
    exec .getFan s = .next { s with result := some w, status := some 0 } ∧
    w.toNat = (s.mem.read 1).toNat / 32

/-- R146, R148, R150, R152, R154, R156, R158. -/
def Obligations.ToggleSettersStoreOneBit : Prop :=
  SetsToggle 0x16 .setPower 2 7 ∧ SetsToggle 0x18 .setWifi 2 3 ∧ SetsToggle 0x1A .setTurbo 2 5 ∧
  SetsToggle 0x1C .setEcono 3 6 ∧ SetsToggle 0x1E .setLight 8 5 ∧ SetsToggle 0x20 .setSwingH 0 0

/-- R147, R149, R151, R153, R155, R157, R159. -/
def Obligations.ToggleGettersReturnOneBit : Prop :=
  GetsToggle 0x17 .getPower 2 7 ∧ GetsToggle 0x19 .getWifi 2 3 ∧ GetsToggle 0x1B .getTurbo 2 5 ∧
  GetsToggle 0x1D .getEcono 3 6 ∧ GetsToggle 0x1F .getLight 8 5 ∧ GetsToggle 0x21 .getSwingH 0 0

/-- R160, for whatever OFF_TIMER_MASK and OFF_TIMER_ENCODE are. -/
def Obligations.SetOffTimerWritesTheMaskedBitsAndTheEnable : Prop :=
  EncodedB 0x22 .setOffTimer ∧ ∀ (b : Half) (s : State), ∃ m : Memory,
    exec (.setOffTimer b) s = .next { s with mem := m, status := some 0 } ∧
    (∀ (k : Fin 4) (a : Fin 10), a.val = 4 + k.val →
      m.read a = (s.mem.read a &&& ~~~Config.chosen.offTimerMask[k]) |||
        ((Config.chosen.offTimerEncode b)[k] &&& Config.chosen.offTimerMask[k])) ∧
    (∀ k, (m.read 8).getLsbD k = if k = 6 then decide (b ≠ 0) else (s.mem.read 8).getLsbD k) ∧
    ∀ a : Fin 10, a.val < 4 ∨ a = 9 → m.read a = s.mem.read a

/-! ### Encoder -/

/-- R181, R182, for whatever the configuration is, with a footer mark and without (R9). -/
def Obligations.FrameIsEightyCellsFooterAndGap : Prop :=
  ∀ (p : Config.Params) (bytes : List Byte), bytes.length = 10 →
    (p.footerMarkUs > 0 → (frame p bytes).length = 162 ∧
      (frame p bytes)[160]? = some ⟨.mark, p.footerMarkUs⟩ ∧
      (frame p bytes)[161]? = some ⟨.space, p.gapUs⟩) ∧
    (p.footerMarkUs = 0 → (frame p bytes).length = 161 ∧
      (frame p bytes)[160]? = some ⟨.space, p.gapUs⟩) ∧
    ∀ j < 80, (frame p bytes)[2 * j]? = some ⟨.mark, p.bitMarkUs⟩ ∧
      (frame p bytes)[2 * j + 1]? = some ⟨.space,
        if (bytes.getD (j / 8) 0).getLsbD (7 - j % 8) then p.oneSpaceUs else p.zeroSpaceUs⟩

/-- R183. -/
def Obligations.FrameDurationCountsTheOneBits : Prop :=
  ∀ (p : Config.Params) (bytes : List Byte), bytes.length = 10 →
    duration (frame p bytes) = 80 * p.bitMarkUs + ones bytes * p.oneSpaceUs +
      (80 - ones bytes) * p.zeroSpaceUs + p.footerMarkUs + p.gapUs ∧
    ones bytes ≤ 80 ∧
    (p.bitMarkUs = 1026 → p.oneSpaceUs = 2553 → p.zeroSpaceUs = 554 → p.footerMarkUs = 1026 →
      duration (frame p bytes) = 127426 + 1999 * ones bytes + p.gapUs)

/-- R184. -/
def Obligations.SendAppendsOneRecordOfTheRecomputedState : Prop :=
  EncodedB 0x30 .send ∧ ∀ (b : Half) (s : State), ∃ m : Memory,
    exec (.send b) s = .next { s with mem := m, status := some 0, txLog := s.txLog ++
      [⟨Config.chosen.carrierHz, Config.chosen.dutyPct,
        (List.replicate (1 + b.toNat) (frame Config.chosen m.bytes)).flatten⟩] } ∧
    (∀ a, a ≠ 9 → m.read a = s.mem.read a) ∧ (m.read 9).toNat = 255 - payloadSum s.mem % 256

/-- R185: the record is what the arguments of the transmission primitive ask for. -/
def Obligations.SendAsksThePrimitiveForItsRecord : Prop :=
  ∀ (b : Half) (s t : State), exec (.send b) s = .next t →
    t.txLog = s.txLog ++
      [⟨(primitiveArgs Config.chosen b s.mem).frequencyHz, (primitiveArgs Config.chosen b s.mem).dutyCycle,
        askedPulses Config.chosen.footerMarkUs (primitiveArgs Config.chosen b s.mem)⟩] ∧
    primitiveArgs Config.chosen b s.mem =
      ⟨Config.chosen.bitMarkUs, Config.chosen.oneSpaceUs, Config.chosen.zeroSpaceUs,
        Config.chosen.gapUs, t.mem.bytes, 80, Config.chosen.carrierHz, true, b.toNat,
        Config.chosen.dutyPct⟩

/-! ### Decoder -/

/-- R203: the bit count first, then the length; a decode that passes both raises neither code. Of the
decode algorithm for whatever the configuration is, and of the two commands. -/
def Obligations.DecodeChecksBitCountThenLength : Prop :=
  (∀ (a : Byte) (b : Half) (s : State),
    exec (.decode a b) s = decodeCommand Config.chosen false a b s ∧
    exec (.decodeStrict a b) s = decodeCommand Config.chosen true a b s) ∧
  ∀ (p : Config.Params) (strict : Bool) (a : Byte) (b : Half) (s : State),
    ((strict = true ∧ a.toNat ≠ 80) ∨ a.toNat = 0 ∨ a.toNat % 8 ≠ 0 ∨ 80 < a.toNat →
      decodeCommand p strict a b s = .next { s with status := some 5 }) ∧
    ((strict = true → a.toNat = 80) → 8 ≤ a.toNat → a.toNat ≤ 80 → a.toNat % 8 = 0 →
      (s.rtLen.toNat < b.toNat + (2 * a.toNat + (if p.footerMarkUs > 0 then 1 else 0)) →
        decodeCommand p strict a b s = .next { s with status := some 3 }) ∧
      (b.toNat + (2 * a.toNat + (if p.footerMarkUs > 0 then 1 else 0)) ≤ s.rtLen.toNat →
        ∀ t, decodeCommand p strict a b s = .next t →
          t.status ≠ some 5 ∧ t.status ≠ some 3))

/-- R204, R205, R206, R207: a decode whose samples all match commits the bytes they carry; the strict
decode of a wrong checksum raises DEC_CHECKSUM instead. -/
def Obligations.DecodeCommitsTheBytesTheCellsCarry : Prop :=
  EncodedAB 0x31 .decode ∧ EncodedAB 0x32 .decodeStrict ∧
  ∀ (a : Byte) (b : Half) (s : State) (bytes : List Byte), a.toNat = 8 * bytes.length →
    CanDecode Config.chosen s a b → CarriesBytes Config.chosen s.rtSample? b.toNat bytes →
    EndMatches Config.chosen s.rtSample? s.rtLen.toNat b.toNat a.toNat →
    exec (.decode a b) s = .next (decodedState s a bytes) ∧
    (a = 80 → exec (.decodeStrict a b) s =
      if validChecksum bytes then .next (decodedState s a bytes)
      else .next { s with status := some 4 })

/-- R204, R205: the first match that fails ends the decode with DEC_MISMATCH, the cells in order,
then the footer mark, then the gap; for whatever the configuration is, the block's among them. -/
def Obligations.DecodeMismatchEndsTheDecode : Prop :=
  (∀ (a : Byte) (b : Half) (s : State),
    exec (.decode a b) s = decodeCommand Config.chosen false a b s ∧
    exec (.decodeStrict a b) s = decodeCommand Config.chosen true a b s) ∧
  ∀ (p : Config.Params) (strict : Bool) (a : Byte) (b : Half) (s : State),
    (strict = true → a = 80) → CanDecode p s a b →
    (∀ k < a.toNat, CellsCarry p s.rtSample? b.toNat k →
      (∃ m sp, s.rtSample? (b.toNat + 2 * k) = some m ∧ s.rtSample? (b.toNat + 2 * k + 1) = some sp ∧
        (p.matchMark m p.bitMarkUs = false ∨
          (p.matchSpace sp p.oneSpaceUs = false ∧ p.matchSpace sp p.zeroSpaceUs = false))) →
      decodeCommand p strict a b s = .next { s with status := some 2 }) ∧
    (EndFails p s a b → decodeCommand p strict a b s = .next { s with status := some 2 })

/-- R201, R202, R49, R200: a sample that the decode comes to and that the host never wrote is
ReadUnwritten: in a cell, at the footer mark, at the gap. Nothing is said of the space of a cell
whose mark fails (log entry 7). -/
def Obligations.DecodeOfAnUnwrittenSampleFaults : Prop :=
  ∀ (i : Instr) (a : Byte) (b : Half) (s : State), IsDecode i a b → CanDecode Config.chosen s a b →
    (∀ k < a.toNat, CellsCarry Config.chosen s.rtSample? b.toNat k →
      (s.rtSample? (b.toNat + 2 * k) = none ∨
        ∃ m, s.rtSample? (b.toNat + 2 * k) = some m ∧
          Config.chosen.matchMark m Config.chosen.bitMarkUs = true ∧
          s.rtSample? (b.toNat + 2 * k + 1) = none) →
      ∃ loc, exec i s = .fault (.readUnwritten loc)) ∧
    (EndUnwritten Config.chosen s a b → ∃ loc, exec i s = .fault (.readUnwritten loc))

/-- R208: decoding undoes encoding; with the gap sample in RT or with RT ending just before it; with a
footer mark and without. -/
def Obligations.DecodeUndoesEncode : Prop :=
  ∀ (bytes : List Byte) (off : Half) (s : State), bytes.length = 10 →
    off.toNat + (frame Config.chosen bytes).length ≤ s.rtLen.toNat + 1 →
    HoldsDurations s off.toNat (frame Config.chosen bytes) →
    exec (.decode 80 off) s = .next (decodedState s 80 bytes) ∧
    (validChecksum bytes = true →
      exec (.decodeStrict 80 off) s = .next (decodedState s 80 bytes))

/-- R209: a SEND with repeat count b makes 1 + b identical frames of 162 pulses (161 without a footer
mark); frame k, where RT holds it from 162·k on, decodes to the state that was sent, in both modes
(R208). -/
def Obligations.EveryFrameOfASendDecodes : Prop :=
  ∀ (b : Half) (s t : State), exec (.send b) s = .next t → ∃ (r : TxRecord) (f : List Pulse),
    t.txLog = s.txLog ++ [r] ∧ f.length = (if Config.chosen.footerMarkUs > 0 then 162 else 161) ∧
    r.pulses = (List.replicate (1 + b.toNat) f).flatten ∧
    ∀ (k : Nat) (off : Half) (u : State), k ≤ b.toNat → off.toNat = f.length * k →
      (∀ j, f.length * k ≤ j → j < f.length * (k + 1) → j < u.rtLen.toNat →
        u.rtSample? j = (r.pulses[j]?).map Pulse.durationUs) →
      f.length * (k + 1) ≤ u.rtLen.toNat + 1 →
      exec (.decode 80 off) u = .next (decodedState u 80 t.mem.bytes) ∧
      exec (.decodeStrict 80 off) u = .next (decodedState u 80 t.mem.bytes)

/-- R210, R200: the outcome of a decode depends on the RT samples that it reads, on RT_LEN and on the
operands only; it reads none before the offset, and at most its cells, a footer mark and a gap. That
it reads both samples of a cell before it matches them is log entry 7. -/
def Obligations.DecodeDependsOnlyOnTheCapture : Prop :=
  ∀ (strict : Bool) (i : Instr) (a : Byte) (b : Half) (s s' : State),
    i = (if strict then .decodeStrict a b else .decode a b) →
    (∀ k, (s.decodeJob strict a b).Reads Config.chosen s.rtSample? k →
      b.toNat ≤ k ∧ k < b.toNat + 2 * a.toNat + 2 ∧ k < s.rtLen.toNat) ∧
    (s'.rtLen = s.rtLen →
    (∀ k, (s.decodeJob strict a b).Reads Config.chosen s.rtSample? k → s'.rtSample? k = s.rtSample? k) →
    (∀ f, exec i s = .fault f → exec i s' = .fault f) ∧
    (∀ t, exec i s = .next t → exec i s' = .next { s' with
      status := t.status
      decBits := if t.status = some 0 then t.decBits else s'.decBits
      decBytes := if t.status = some 0 then t.decBytes else s'.decBytes }))

/-! ### Assembler -/

/-- R88, R89, R90: lines of text, for whatever the OPEN codes are. -/
def Obligations.AssemblerExpandsSymbolsAndPseudos : Prop :=
  ∀ p : Config.Params,
    assemble p "SET_TEMP 26".toList = some (.setTemp 26) ∧
    assemble p "DECODE 80, 1 ; one frame".toList = some (.decode 80 1) ∧
    assemble p "SET_MODE COOL".toList = some (.setMode (p.modeCool.setWidth 8)) ∧
    assemble p "SET_FAN AUTO".toList = some (.setFan (p.fanAuto.setWidth 8)) ∧
    assemble p "SET_LIGHT ON".toList = some (.setLight 1) ∧
    assemble p "SEND".toList = some (.send 0) ∧
    assemble p "DECODE 1".toList = some (.decode 80 1) ∧
    assemble p "DECODE_STRICT 0x1".toList = some (.decodeStrict 80 1) ∧
    assemble p "POWER_ON".toList = some (.setPower 1) ∧
    assemble p "POWER_OFF".toList = some (.setPower 0) ∧
    assemble p "DISABLE_OFF_TIMER".toList = some (.setOffTimer 0) ∧
    assemble p "FIX_CHECKSUM".toList = some .getRaw
end

