-- ==== Sys2Proof/Laws/Cells.lean ====
section
/-! SUPPORT. The laws of cell lists and of the state buffer: read after write, frames, and that every
memory operation keeps the canonical form. -/

namespace Sys2Proof.Machine

section Cells
variable {α : Type}

@[simp] theorem cellLookup_nil (a : Nat) : cellLookup a ([] : Cells α) = none := rfl

theorem cellLookup_cons (a k : Nat) (v : α) (l : Cells α) :
    cellLookup a ((k, v) :: l) = if k = a then some v else cellLookup a l := rfl

/-- Reading an address after listing a value at an address. -/
theorem cellLookup_cellInsert (a b : Nat) (v : α) (l : Cells α) :
    cellLookup b (cellInsert a v l) = if b = a then some v else cellLookup b l := by
  induction l with
  | nil => simp [cellInsert, cellLookup_cons, eq_comm]
  | cons c l ih =>
    obtain ⟨k, w⟩ := c
    simp only [cellInsert]
    split
    · simp only [cellLookup_cons, eq_comm]
    · split
      · subst_vars
        simp only [cellLookup_cons, eq_comm]
        split <;> rfl
      · simp only [cellLookup_cons, ih]
        split
        · subst_vars
          rw [if_neg (Ne.symm ‹_›)]
        · rfl

/-- Reading an address after taking an address out. -/
theorem cellLookup_cellErase (a b : Nat) (l : Cells α) :
    cellLookup b (cellErase a l) = if b = a then none else cellLookup b l := by
  induction l with
  | nil => simp [cellErase]
  | cons c l ih =>
    obtain ⟨k, w⟩ := c
    have ih' : cellLookup b (l.filter fun c => c.1 != a) = if b = a then none else cellLookup b l := ih
    rcases eq_or_ne k a with rfl | h
    · simp only [cellErase, List.filter_cons, bne_self_eq_false, Bool.false_eq_true, if_false, ih',
        cellLookup_cons, eq_comm]
      split <;> rfl
    · simp only [cellErase, List.filter_cons, bne_iff_ne, ne_eq, h, not_false_eq_true, if_true,
        cellLookup_cons, ih']
      split
      · subst_vars; rw [if_neg h]
      · rfl

theorem cellInsert_cellInsert (a : Nat) (v : α) (l : Cells α) :
    cellInsert a v (cellInsert a v l) = cellInsert a v l := by
  induction l with
  | nil => simp [cellInsert]
  | cons c l ih =>
    obtain ⟨k, w⟩ := c
    simp only [cellInsert]
    split
    · simp [cellInsert]
    · split
      · simp [cellInsert]
      · simp [cellInsert, *]

theorem cellErase_cellErase (a : Nat) (l : Cells α) :
    cellErase a (cellErase a l) = cellErase a l := by
  simp [cellErase]

/-- The cells of the list after an insert. -/
theorem mem_cellInsert {a : Nat} {v : α} {l : Cells α} {c : Nat × α} (h : c ∈ cellInsert a v l) :
    c = (a, v) ∨ c ∈ l := by
  induction l with
  | nil => simpa [cellInsert] using h
  | cons d l ih =>
    obtain ⟨k, w⟩ := d
    simp only [cellInsert] at h
    split at h
    · simpa using h
    · split at h
      · rcases List.mem_cons.1 h with rfl | h
        · exact .inl rfl
        · exact .inr (List.mem_cons_of_mem _ h)
      · rcases List.mem_cons.1 h with rfl | h
        · exact .inr List.mem_cons_self
        · exact (ih h).imp id (List.mem_cons_of_mem _)

theorem mem_of_mem_cellErase {a : Nat} {l : Cells α} {c : Nat × α} (h : c ∈ cellErase a l) :
    c ∈ l := (List.mem_filter.1 h).1

/-- An insert keeps the addresses rising. -/
theorem sorted_cellInsert {l : Cells α} (h : Cells.Sorted l) (a : Nat) (v : α) :
    Cells.Sorted (cellInsert a v l) := by
  induction l with
  | nil => simp [cellInsert, Cells.Sorted]
  | cons c l ih =>
    obtain ⟨k, w⟩ := c
    simp only [Cells.Sorted, List.map_cons, List.pairwise_cons] at h
    obtain ⟨hk, hl⟩ := h
    simp only [cellInsert]
    split
    · rename_i hak
      simp only [Cells.Sorted, List.map_cons, List.pairwise_cons]
      refine ⟨fun x hx => ?_, hk, hl⟩
      rcases List.mem_cons.1 hx with rfl | hx
      · exact hak
      · exact hak.trans (hk x hx)
    · split
      · subst_vars
        exact List.pairwise_cons.2 ⟨hk, hl⟩
      · refine List.pairwise_cons.2 ⟨fun x hx => ?_, ih hl⟩
        obtain ⟨c, hc, rfl⟩ := List.mem_map.1 hx
        rcases mem_cellInsert hc with rfl | hc
        · show k < a
          omega
        · exact hk _ (List.mem_map_of_mem hc)

/-- Taking an address out keeps the addresses rising. -/
theorem sorted_cellErase {l : Cells α} (h : Cells.Sorted l) (a : Nat) :
    Cells.Sorted (cellErase a l) :=
  h.sublist ((List.filter_sublist).map Prod.fst)

end Cells

/-! ### The state buffer -/

namespace Memory

@[simp] theorem read_nil (a : Fin 10) : Memory.read [] a = 0 := rfl

/-- Reading a byte after writing a byte. -/
theorem read_write (m : Memory) (a b : Fin 10) (v : Byte) :
    (m.write a v).read b = if b = a then v else m.read b := by
  simp only [write, read]
  split
  · subst_vars
    rw [cellLookup_cellErase]
    simp only [Fin.val_inj]
    split <;> rfl
  · rw [cellLookup_cellInsert]
    simp only [Fin.val_inj]
    split <;> rfl

@[simp] theorem read_write_self (m : Memory) (a : Fin 10) (v : Byte) : (m.write a v).read a = v := by
  simp [read_write]

theorem read_write_of_ne (m : Memory) {a b : Fin 10} (v : Byte) (h : b ≠ a) :
    (m.write a v).read b = m.read b := by
  simp [read_write, h]

/-- Writing the same byte twice is writing it once. -/
theorem write_write_self (m : Memory) (a : Fin 10) (v : Byte) :
    (m.write a v).write a v = m.write a v := by
  simp only [write]
  split
  · exact cellErase_cellErase _ _
  · exact cellInsert_cellInsert _ _ _

/-- A write keeps the canonical form. -/
theorem wf_write {m : Memory} (h : m.wf) (a : Fin 10) (v : Byte) : (m.write a v).wf := by
  simp only [write]
  split
  · exact ⟨sorted_cellErase h.1 _, fun c hc => h.2 c (mem_of_mem_cellErase hc)⟩
  · refine ⟨sorted_cellInsert h.1 _ _, fun c hc => ?_⟩
    rcases mem_cellInsert hc with rfl | hc
    · exact ⟨a.isLt, ‹_›⟩
    · exact h.2 c hc

/-- Reset memory is in canonical form. -/
theorem wf_nil : Memory.wf [] := ⟨List.Pairwise.nil, fun _ hc => absurd hc (by simp)⟩

theorem cellLookup_filter_ofFn {n : Nat} (f : Fin n → Byte) (g : Fin n → Nat)
    (hg : Function.Injective g) (a : Fin n) :
    (cellLookup (g a) ((List.ofFn fun i => (g i, f i)).filter fun c => c.2 != Memory.unlisted)).getD
      Memory.unlisted = f a := by
  induction n with
  | zero => exact a.elim0
  | succ n ih =>
    have hs : Function.Injective fun i : Fin n => g i.succ := fun i j h =>
      Fin.succ_injective _ (hg h)
    have hnone : ∀ l : Cells Byte, g 0 ∉ l.map Prod.fst → cellLookup (g 0) l = none := by
      intro l
      induction l with
      | nil => simp
      | cons c l ih =>
        obtain ⟨k, w⟩ := c
        intro h
        simp only [List.map_cons, List.mem_cons, not_or] at h
        rw [cellLookup_cons, if_neg (fun e => h.1 e.symm), ih h.2]
    rw [List.ofFn_succ, List.filter_cons]
    refine Fin.cases ?_ (fun i => ?_) a
    · split
      · simp [cellLookup_cons]
      · rename_i h0
        rw [hnone]
        · have h : f 0 = Memory.unlisted := by simpa using h0
          exact h.symm
        · intro hm
          obtain ⟨c, hc, he⟩ := List.mem_map.1 hm
          obtain ⟨i, rfl⟩ := List.mem_ofFn.1 (List.mem_filter.1 hc).1
          exact absurd (hg he) (Fin.succ_ne_zero i)
    · split
      · rw [cellLookup_cons, if_neg (fun e => absurd (hg e) (Fin.succ_ne_zero i).symm)]
        exact ih (fun i => f i.succ) (fun i => g i.succ) hs i
      · exact ih (fun i => f i.succ) (fun i => g i.succ) hs i

/-- Reading a byte after writing all ten. -/
@[simp] theorem read_ofFn (f : Fin 10 → Byte) (a : Fin 10) : (ofFn f).read a = f a :=
  cellLookup_filter_ofFn f Fin.val Fin.val_injective a

/-- Writing all ten bytes gives the canonical form. -/
theorem wf_ofFn (f : Fin 10 → Byte) : (ofFn f).wf := by
  refine ⟨?_, fun c hc => ?_⟩
  · refine List.Pairwise.sublist ((List.filter_sublist).map Prod.fst) ?_
    rw [List.map_ofFn]
    exact List.pairwise_ofFn.2 fun i j h => h
  · obtain ⟨hc, hv⟩ := List.mem_filter.1 hc
    obtain ⟨i, rfl⟩ := List.mem_ofFn.1 hc
    exact ⟨i.isLt, by simpa using hv⟩

@[simp] theorem length_bytes (m : Memory) : m.bytes.length = 10 := List.length_ofFn

@[simp] theorem getElem_bytes (m : Memory) (i : Nat) (h : i < m.bytes.length) :
    m.bytes[i] = m.read ⟨i, by simpa using h⟩ := List.getElem_ofFn _

/-- Two state buffers that read alike have the same bytes. -/
theorem bytes_congr {m n : Memory} (h : ∀ a, m.read a = n.read a) : m.bytes = n.bytes := by
  simp only [bytes, funext h]

end Memory

end Sys2Proof.Machine
end

