-- ==== Sys2Proof/Laws/State.lean ====
section
/-! SUPPORT. One lemma per field per update of the state, so that no proof unfolds a record
update. -/

namespace Sys2Proof.Machine

@[simp] theorem withMem_mem (s : State) (m : Memory) : (s.withMem m).mem = m := rfl
@[simp] theorem withMem_status (s : State) (m : Memory) : (s.withMem m).status = s.status := rfl
@[simp] theorem withMem_result (s : State) (m : Memory) : (s.withMem m).result = s.result := rfl
@[simp] theorem withMem_outBytes (s : State) (m : Memory) : (s.withMem m).outBytes = s.outBytes := rfl
@[simp] theorem withMem_decBits (s : State) (m : Memory) : (s.withMem m).decBits = s.decBits := rfl
@[simp] theorem withMem_decBytes (s : State) (m : Memory) : (s.withMem m).decBytes = s.decBytes := rfl
@[simp] theorem withMem_inLen (s : State) (m : Memory) : (s.withMem m).inLen = s.inLen := rfl
@[simp] theorem withMem_inPort (s : State) (m : Memory) : (s.withMem m).inPort = s.inPort := rfl
@[simp] theorem withMem_rtLen (s : State) (m : Memory) : (s.withMem m).rtLen = s.rtLen := rfl
@[simp] theorem withMem_rtPort (s : State) (m : Memory) : (s.withMem m).rtPort = s.rtPort := rfl
@[simp] theorem withMem_txLog (s : State) (m : Memory) : (s.withMem m).txLog = s.txLog := rfl
@[simp] theorem withMem_host (s : State) (m : Memory) : (s.withMem m).host = s.host := rfl

@[simp] theorem withStatus_mem (s : State) (c : Completion) : (s.withStatus c).mem = s.mem := rfl
@[simp] theorem withStatus_status (s : State) (c : Completion) : (s.withStatus c).status = some c.code := rfl
@[simp] theorem withStatus_result (s : State) (c : Completion) : (s.withStatus c).result = s.result := rfl
@[simp] theorem withStatus_outBytes (s : State) (c : Completion) : (s.withStatus c).outBytes = s.outBytes := rfl
@[simp] theorem withStatus_decBits (s : State) (c : Completion) : (s.withStatus c).decBits = s.decBits := rfl
@[simp] theorem withStatus_decBytes (s : State) (c : Completion) : (s.withStatus c).decBytes = s.decBytes := rfl
@[simp] theorem withStatus_inLen (s : State) (c : Completion) : (s.withStatus c).inLen = s.inLen := rfl
@[simp] theorem withStatus_inPort (s : State) (c : Completion) : (s.withStatus c).inPort = s.inPort := rfl
@[simp] theorem withStatus_rtLen (s : State) (c : Completion) : (s.withStatus c).rtLen = s.rtLen := rfl
@[simp] theorem withStatus_rtPort (s : State) (c : Completion) : (s.withStatus c).rtPort = s.rtPort := rfl
@[simp] theorem withStatus_txLog (s : State) (c : Completion) : (s.withStatus c).txLog = s.txLog := rfl
@[simp] theorem withStatus_host (s : State) (c : Completion) : (s.withStatus c).host = s.host := rfl

@[simp] theorem withResult_mem (s : State) (v : Half) : (s.withResult v).mem = s.mem := rfl
@[simp] theorem withResult_status (s : State) (v : Half) : (s.withResult v).status = s.status := rfl
@[simp] theorem withResult_result (s : State) (v : Half) : (s.withResult v).result = some v := rfl
@[simp] theorem withResult_outBytes (s : State) (v : Half) : (s.withResult v).outBytes = s.outBytes := rfl
@[simp] theorem withResult_decBits (s : State) (v : Half) : (s.withResult v).decBits = s.decBits := rfl
@[simp] theorem withResult_decBytes (s : State) (v : Half) : (s.withResult v).decBytes = s.decBytes := rfl
@[simp] theorem withResult_inLen (s : State) (v : Half) : (s.withResult v).inLen = s.inLen := rfl
@[simp] theorem withResult_inPort (s : State) (v : Half) : (s.withResult v).inPort = s.inPort := rfl
@[simp] theorem withResult_rtLen (s : State) (v : Half) : (s.withResult v).rtLen = s.rtLen := rfl
@[simp] theorem withResult_rtPort (s : State) (v : Half) : (s.withResult v).rtPort = s.rtPort := rfl
@[simp] theorem withResult_txLog (s : State) (v : Half) : (s.withResult v).txLog = s.txLog := rfl
@[simp] theorem withResult_host (s : State) (v : Half) : (s.withResult v).host = s.host := rfl

@[simp] theorem withOutBytes_mem (s : State) (f : Fin 10 → Byte) : (s.withOutBytes f).mem = s.mem := rfl
@[simp] theorem withOutBytes_status (s : State) (f : Fin 10 → Byte) : (s.withOutBytes f).status = s.status := rfl
@[simp] theorem withOutBytes_result (s : State) (f : Fin 10 → Byte) : (s.withOutBytes f).result = s.result := rfl
@[simp] theorem withOutBytes_outBytes (s : State) (f : Fin 10 → Byte) : (s.withOutBytes f).outBytes = Vector.ofFn fun i => some (f i) := rfl
@[simp] theorem withOutBytes_decBits (s : State) (f : Fin 10 → Byte) : (s.withOutBytes f).decBits = s.decBits := rfl
@[simp] theorem withOutBytes_decBytes (s : State) (f : Fin 10 → Byte) : (s.withOutBytes f).decBytes = s.decBytes := rfl
@[simp] theorem withOutBytes_inLen (s : State) (f : Fin 10 → Byte) : (s.withOutBytes f).inLen = s.inLen := rfl
@[simp] theorem withOutBytes_inPort (s : State) (f : Fin 10 → Byte) : (s.withOutBytes f).inPort = s.inPort := rfl
@[simp] theorem withOutBytes_rtLen (s : State) (f : Fin 10 → Byte) : (s.withOutBytes f).rtLen = s.rtLen := rfl
@[simp] theorem withOutBytes_rtPort (s : State) (f : Fin 10 → Byte) : (s.withOutBytes f).rtPort = s.rtPort := rfl
@[simp] theorem withOutBytes_txLog (s : State) (f : Fin 10 → Byte) : (s.withOutBytes f).txLog = s.txLog := rfl
@[simp] theorem withOutBytes_host (s : State) (f : Fin 10 → Byte) : (s.withOutBytes f).host = s.host := rfl

@[simp] theorem withDecoded_mem (s : State) (n : Byte) (l : List Byte) : (s.withDecoded n l).mem = s.mem := rfl
@[simp] theorem withDecoded_status (s : State) (n : Byte) (l : List Byte) : (s.withDecoded n l).status = s.status := rfl
@[simp] theorem withDecoded_result (s : State) (n : Byte) (l : List Byte) : (s.withDecoded n l).result = s.result := rfl
@[simp] theorem withDecoded_outBytes (s : State) (n : Byte) (l : List Byte) : (s.withDecoded n l).outBytes = s.outBytes := rfl
@[simp] theorem withDecoded_decBits (s : State) (n : Byte) (l : List Byte) : (s.withDecoded n l).decBits = some n := rfl
@[simp] theorem withDecoded_decBytes (s : State) (n : Byte) (l : List Byte) : (s.withDecoded n l).decBytes = Vector.ofFn fun i => l[i.val]? := rfl
@[simp] theorem withDecoded_inLen (s : State) (n : Byte) (l : List Byte) : (s.withDecoded n l).inLen = s.inLen := rfl
@[simp] theorem withDecoded_inPort (s : State) (n : Byte) (l : List Byte) : (s.withDecoded n l).inPort = s.inPort := rfl
@[simp] theorem withDecoded_rtLen (s : State) (n : Byte) (l : List Byte) : (s.withDecoded n l).rtLen = s.rtLen := rfl
@[simp] theorem withDecoded_rtPort (s : State) (n : Byte) (l : List Byte) : (s.withDecoded n l).rtPort = s.rtPort := rfl
@[simp] theorem withDecoded_txLog (s : State) (n : Byte) (l : List Byte) : (s.withDecoded n l).txLog = s.txLog := rfl
@[simp] theorem withDecoded_host (s : State) (n : Byte) (l : List Byte) : (s.withDecoded n l).host = s.host := rfl

@[simp] theorem withRecord_mem (s : State) (r : TxRecord) : (s.withRecord r).mem = s.mem := rfl
@[simp] theorem withRecord_status (s : State) (r : TxRecord) : (s.withRecord r).status = s.status := rfl
@[simp] theorem withRecord_result (s : State) (r : TxRecord) : (s.withRecord r).result = s.result := rfl
@[simp] theorem withRecord_outBytes (s : State) (r : TxRecord) : (s.withRecord r).outBytes = s.outBytes := rfl
@[simp] theorem withRecord_decBits (s : State) (r : TxRecord) : (s.withRecord r).decBits = s.decBits := rfl
@[simp] theorem withRecord_decBytes (s : State) (r : TxRecord) : (s.withRecord r).decBytes = s.decBytes := rfl
@[simp] theorem withRecord_inLen (s : State) (r : TxRecord) : (s.withRecord r).inLen = s.inLen := rfl
@[simp] theorem withRecord_inPort (s : State) (r : TxRecord) : (s.withRecord r).inPort = s.inPort := rfl
@[simp] theorem withRecord_rtLen (s : State) (r : TxRecord) : (s.withRecord r).rtLen = s.rtLen := rfl
@[simp] theorem withRecord_rtPort (s : State) (r : TxRecord) : (s.withRecord r).rtPort = s.rtPort := rfl
@[simp] theorem withRecord_txLog (s : State) (r : TxRecord) : (s.withRecord r).txLog = s.txLog ++ [r] := rfl
@[simp] theorem withRecord_host (s : State) (r : TxRecord) : (s.withRecord r).host = s.host := rfl

@[simp] theorem withInByte_mem (s : State) (i : Nat) (v : Byte) : (s.withInByte i v).mem = s.mem := rfl
@[simp] theorem withInByte_status (s : State) (i : Nat) (v : Byte) : (s.withInByte i v).status = s.status := rfl
@[simp] theorem withInByte_result (s : State) (i : Nat) (v : Byte) : (s.withInByte i v).result = s.result := rfl
@[simp] theorem withInByte_outBytes (s : State) (i : Nat) (v : Byte) : (s.withInByte i v).outBytes = s.outBytes := rfl
@[simp] theorem withInByte_decBits (s : State) (i : Nat) (v : Byte) : (s.withInByte i v).decBits = s.decBits := rfl
@[simp] theorem withInByte_decBytes (s : State) (i : Nat) (v : Byte) : (s.withInByte i v).decBytes = s.decBytes := rfl
@[simp] theorem withInByte_inLen (s : State) (i : Nat) (v : Byte) : (s.withInByte i v).inLen = s.inLen := rfl
@[simp] theorem withInByte_inPort (s : State) (i : Nat) (v : Byte) : (s.withInByte i v).inPort = cellInsert i v s.inPort := rfl
@[simp] theorem withInByte_rtLen (s : State) (i : Nat) (v : Byte) : (s.withInByte i v).rtLen = s.rtLen := rfl
@[simp] theorem withInByte_rtPort (s : State) (i : Nat) (v : Byte) : (s.withInByte i v).rtPort = s.rtPort := rfl
@[simp] theorem withInByte_txLog (s : State) (i : Nat) (v : Byte) : (s.withInByte i v).txLog = s.txLog := rfl
@[simp] theorem withInByte_host (s : State) (i : Nat) (v : Byte) : (s.withInByte i v).host = s.host := rfl

@[simp] theorem withInLen_mem (s : State) (n : Byte) : (s.withInLen n).mem = s.mem := rfl
@[simp] theorem withInLen_status (s : State) (n : Byte) : (s.withInLen n).status = s.status := rfl
@[simp] theorem withInLen_result (s : State) (n : Byte) : (s.withInLen n).result = s.result := rfl
@[simp] theorem withInLen_outBytes (s : State) (n : Byte) : (s.withInLen n).outBytes = s.outBytes := rfl
@[simp] theorem withInLen_decBits (s : State) (n : Byte) : (s.withInLen n).decBits = s.decBits := rfl
@[simp] theorem withInLen_decBytes (s : State) (n : Byte) : (s.withInLen n).decBytes = s.decBytes := rfl
@[simp] theorem withInLen_inLen (s : State) (n : Byte) : (s.withInLen n).inLen = n := rfl
@[simp] theorem withInLen_inPort (s : State) (n : Byte) : (s.withInLen n).inPort = s.inPort := rfl
@[simp] theorem withInLen_rtLen (s : State) (n : Byte) : (s.withInLen n).rtLen = s.rtLen := rfl
@[simp] theorem withInLen_rtPort (s : State) (n : Byte) : (s.withInLen n).rtPort = s.rtPort := rfl
@[simp] theorem withInLen_txLog (s : State) (n : Byte) : (s.withInLen n).txLog = s.txLog := rfl
@[simp] theorem withInLen_host (s : State) (n : Byte) : (s.withInLen n).host = s.host := rfl

@[simp] theorem withRtSample_mem (s : State) (i : Nat) (v : Sample) : (s.withRtSample i v).mem = s.mem := rfl
@[simp] theorem withRtSample_status (s : State) (i : Nat) (v : Sample) : (s.withRtSample i v).status = s.status := rfl
@[simp] theorem withRtSample_result (s : State) (i : Nat) (v : Sample) : (s.withRtSample i v).result = s.result := rfl
@[simp] theorem withRtSample_outBytes (s : State) (i : Nat) (v : Sample) : (s.withRtSample i v).outBytes = s.outBytes := rfl
@[simp] theorem withRtSample_decBits (s : State) (i : Nat) (v : Sample) : (s.withRtSample i v).decBits = s.decBits := rfl
@[simp] theorem withRtSample_decBytes (s : State) (i : Nat) (v : Sample) : (s.withRtSample i v).decBytes = s.decBytes := rfl
@[simp] theorem withRtSample_inLen (s : State) (i : Nat) (v : Sample) : (s.withRtSample i v).inLen = s.inLen := rfl
@[simp] theorem withRtSample_inPort (s : State) (i : Nat) (v : Sample) : (s.withRtSample i v).inPort = s.inPort := rfl
@[simp] theorem withRtSample_rtLen (s : State) (i : Nat) (v : Sample) : (s.withRtSample i v).rtLen = s.rtLen := rfl
@[simp] theorem withRtSample_rtPort (s : State) (i : Nat) (v : Sample) : (s.withRtSample i v).rtPort = cellInsert i v s.rtPort := rfl
@[simp] theorem withRtSample_txLog (s : State) (i : Nat) (v : Sample) : (s.withRtSample i v).txLog = s.txLog := rfl
@[simp] theorem withRtSample_host (s : State) (i : Nat) (v : Sample) : (s.withRtSample i v).host = s.host := rfl

@[simp] theorem withRtLen_mem (s : State) (n : Half) : (s.withRtLen n).mem = s.mem := rfl
@[simp] theorem withRtLen_status (s : State) (n : Half) : (s.withRtLen n).status = s.status := rfl
@[simp] theorem withRtLen_result (s : State) (n : Half) : (s.withRtLen n).result = s.result := rfl
@[simp] theorem withRtLen_outBytes (s : State) (n : Half) : (s.withRtLen n).outBytes = s.outBytes := rfl
@[simp] theorem withRtLen_decBits (s : State) (n : Half) : (s.withRtLen n).decBits = s.decBits := rfl
@[simp] theorem withRtLen_decBytes (s : State) (n : Half) : (s.withRtLen n).decBytes = s.decBytes := rfl
@[simp] theorem withRtLen_inLen (s : State) (n : Half) : (s.withRtLen n).inLen = s.inLen := rfl
@[simp] theorem withRtLen_inPort (s : State) (n : Half) : (s.withRtLen n).inPort = s.inPort := rfl
@[simp] theorem withRtLen_rtLen (s : State) (n : Half) : (s.withRtLen n).rtLen = n := rfl
@[simp] theorem withRtLen_rtPort (s : State) (n : Half) : (s.withRtLen n).rtPort = s.rtPort := rfl
@[simp] theorem withRtLen_txLog (s : State) (n : Half) : (s.withRtLen n).txLog = s.txLog := rfl
@[simp] theorem withRtLen_host (s : State) (n : Half) : (s.withRtLen n).host = s.host := rfl

@[simp] theorem withHost_mem (s : State) (l : List HostAction) : (s.withHost l).mem = s.mem := rfl
@[simp] theorem withHost_status (s : State) (l : List HostAction) : (s.withHost l).status = s.status := rfl
@[simp] theorem withHost_result (s : State) (l : List HostAction) : (s.withHost l).result = s.result := rfl
@[simp] theorem withHost_outBytes (s : State) (l : List HostAction) : (s.withHost l).outBytes = s.outBytes := rfl
@[simp] theorem withHost_decBits (s : State) (l : List HostAction) : (s.withHost l).decBits = s.decBits := rfl
@[simp] theorem withHost_decBytes (s : State) (l : List HostAction) : (s.withHost l).decBytes = s.decBytes := rfl
@[simp] theorem withHost_inLen (s : State) (l : List HostAction) : (s.withHost l).inLen = s.inLen := rfl
@[simp] theorem withHost_inPort (s : State) (l : List HostAction) : (s.withHost l).inPort = s.inPort := rfl
@[simp] theorem withHost_rtLen (s : State) (l : List HostAction) : (s.withHost l).rtLen = s.rtLen := rfl
@[simp] theorem withHost_rtPort (s : State) (l : List HostAction) : (s.withHost l).rtPort = s.rtPort := rfl
@[simp] theorem withHost_txLog (s : State) (l : List HostAction) : (s.withHost l).txLog = s.txLog := rfl
@[simp] theorem withHost_host (s : State) (l : List HostAction) : (s.withHost l).host = l := rfl

end Sys2Proof.Machine
end

