-- ==== Sys2Proof/Laws/Ops.lean ====
section
/-! SUPPORT. One lemma per shared operation, saying once everything it can do: the ends of a command,
port reads, fields, checksums. -/

namespace Sys2Proof.Machine

/-! ### The ends of a command -/

@[simp] theorem finish_next (s t : State) : finish s = .next t ↔ s.withStatus .ok = t := by
  simp [finish]

@[simp] theorem raise_next (e : Completion) (s t : State) :
    raise e s = .next t ↔ s.withStatus e = t := by
  simp [raise]

@[simp] theorem unwritten_ne_next (loc : Location) (t : State) : unwritten loc ≠ .next t := by
  simp [unwritten]

@[simp] theorem finishWith_next (v : Half) (s t : State) :
    finishWith v s = .next t ↔ (s.withResult v).withStatus .ok = t := by
  simp [finishWith]

@[simp] theorem finishMem_next (m : Memory) (s t : State) :
    finishMem m s = .next t ↔ (s.withMem m).withStatus .ok = t := by
  simp [finishMem]

/-- The codes of R230 are 0 to 6. -/
theorem Completion.code_le (e : Completion) : e.code.toNat ≤ 6 := by cases e <;> decide

/-- Only OK has code 0. -/
theorem Completion.code_eq_zero {e : Completion} : e.code = 0 ↔ e = .ok := by cases e <;> decide

/-! ### Ports -/

section Range
variable {α : Type} {read : Nat → Option α}

/-- A range whose entries were all written is read whole. -/
theorem readRange_of_forall {l : List α} (i : Nat)
    (h : ∀ (j : Nat) (hj : j < l.length), read (i + j) = some l[j]) :
    readRange read i l.length = .ok l := by
  induction l generalizing i with
  | nil => rfl
  | cons v l ih =>
    have h0 : read i = some v := h 0 (by simp)
    have ht : readRange read (i + 1) l.length = .ok l :=
      ih (i + 1) fun j hj => by
        have := h (j + 1) (by simpa using hj)
        simpa [Nat.add_assoc, Nat.add_comm 1 j] using this
    simp [readRange, h0, ht]

/-- What a range read gives when it succeeds. -/
theorem readRange_ok {i n : Nat} {l : List α} (h : readRange read i n = .ok l) :
    l.length = n ∧ ∀ (j : Nat) (hj : j < l.length), read (i + j) = some l[j] := by
  induction n generalizing i l with
  | zero =>
    simp only [readRange, Except.ok.injEq] at h
    subst h
    simp
  | succ n ih =>
    simp only [readRange] at h
    split at h
    · cases h
    · rename_i v hv
      split at h
      · cases h
      · rename_i l' hl
        cases h
        obtain ⟨hn, hr⟩ := ih hl
        refine ⟨by simp [hn], fun j hj => ?_⟩
        cases j with
        | zero => exact hv
        | succ j =>
          have := hr j (by simpa using hj)
          simpa [Nat.add_assoc, Nat.add_comm 1 j] using this

/-- A range read fails only at an entry that was never written. -/
theorem readRange_error {i n j : Nat} (h : readRange read i n = .error j) :
    read j = none ∧ i ≤ j ∧ j < i + n := by
  induction n generalizing i with
  | zero => cases h
  | succ n ih =>
    simp only [readRange] at h
    split at h
    · cases h; exact ⟨‹_›, le_rfl, by omega⟩
    · split at h
      · cases h
        obtain ⟨h1, h2, h3⟩ := ih ‹_›
        exact ⟨h1, by omega, by omega⟩
      · cases h

/-- A range with an unwritten entry is not read. -/
theorem readRange_of_none {i n j : Nat} (hi : i ≤ j) (hj : j < i + n) (h : read j = none) :
    ∃ k, readRange read i n = .error k := by
  cases hr : readRange read i n with
  | error k => exact ⟨k, rfl⟩
  | ok l =>
    obtain ⟨hn, hr⟩ := readRange_ok hr
    have := hr (j - i) (by omega)
    rw [Nat.add_sub_cancel' hi, h] at this
    cases this

/-- A range read depends on the entries in the range only. -/
theorem readRange_congr {read' : Nat → Option α} (i n : Nat)
    (h : ∀ k, i ≤ k → k < i + n → read' k = read k) : readRange read' i n = readRange read i n := by
  induction n generalizing i with
  | zero => rfl
  | succ n ih =>
    simp only [readRange, h i le_rfl (by omega)]
    rw [ih (i + 1) fun k h1 h2 => h k (by omega) (by omega)]

end Range

/-- A command whose IN bytes were all written gets them. -/
theorem withIn_of_forall {s : State} {l : List Byte} {k : List Byte → Result}
    (h : ∀ (j : Nat) (hj : j < l.length), s.inByte? j = some l[j]) :
    withIn s l.length k = k l := by
  rw [withIn, readRange_of_forall 0 (by simpa using h)]

/-- What a command that reads IN can do: run on the bytes the host wrote, or stop. -/
theorem withIn_cases (s : State) (n : Nat) (k : List Byte → Result) :
    (∃ i < n, s.inByte? i = none ∧ withIn s n k = unwritten (.inByte i)) ∨
    (∃ l : List Byte, l.length = n ∧ (∀ (j : Nat) (hj : j < l.length), s.inByte? j = some l[j]) ∧
      withIn s n k = k l) := by
  cases hr : readRange s.inByte? 0 n with
  | error i =>
    obtain ⟨h1, -, h3⟩ := readRange_error hr
    exact .inl ⟨i, by omega, h1, by simp [withIn, hr]⟩
  | ok l =>
    obtain ⟨h1, h2⟩ := readRange_ok hr
    exact .inr ⟨l, h1, by simpa using h2, by simp [withIn, hr]⟩

/-- IN after a host write of one byte. -/
theorem inByte?_withInByte (s : State) (i : Nat) (v : Byte) (hi : i < Config.inCap) (j : Nat) :
    (s.withInByte i v).inByte? j = if j = i then some v else s.inByte? j := by
  simp only [State.inByte?, withInByte_inPort, cellLookup_cellInsert]
  split
  · rfl
  · split
    · omega
    · rfl

/-- RT after a host write of one sample. -/
theorem rtSample?_withRtSample (s : State) (i : Nat) (v : Sample) (j : Nat) :
    (s.withRtSample i v).rtSample? j = if j = i then some v.toNat else s.rtSample? j := by
  simp only [State.rtSample?, withRtSample_rtPort, cellLookup_cellInsert]
  split <;> rfl

/-! ### Fields -/

/-- A bit of the merge of two bytes under a mask. -/
@[simp] theorem getLsbD_underMask (mask e old : Byte) (k : Nat) :
    (underMask mask e old).getLsbD k =
      if mask.getLsbD k then e.getLsbD k else old.getLsbD k := by
  simp only [underMask, BitVec.getLsbD_or, BitVec.getLsbD_and, BitVec.getLsbD_not]
  rcases Nat.lt_or_ge k 8 with h | h
  · cases mask.getLsbD k <;> simp [h]
  · simp [BitVec.getLsbD_of_ge _ k h]

theorem read_writeUnder (m : Memory) (a b : Fin 10) (mask e : Byte) :
    (m.writeUnder a mask e).read b = if b = a then underMask mask e (m.read a) else m.read b := by
  simp only [Memory.writeUnder, Memory.read_write]

/-- Reading a byte after writing a field. -/
theorem read_setField (m : Memory) (f : BitField) (v : Byte) (a : Fin 10) :
    (m.setField f v).read a =
      if a = f.place.byte then f.place.insert v (m.read a) else m.read a := by
  simp only [Memory.setField, Memory.read_write]
  split
  · subst_vars; rfl
  · rfl

theorem wf_setField {m : Memory} (h : m.wf) (f : BitField) (v : Byte) : (m.setField f v).wf :=
  Memory.wf_write h _ _

theorem wf_writeUnder {m : Memory} (h : m.wf) (a : Fin 10) (mask e : Byte) :
    (m.writeUnder a mask e).wf := Memory.wf_write h _ _

theorem wf_offTimerMem {m : Memory} (h : m.wf) (p : Config.Params) (b : Half) :
    (offTimerMem p b m).wf :=
  wf_setField (wf_writeUnder (wf_writeUnder (wf_writeUnder (wf_writeUnder h _ _ _) _ _ _) _ _ _) _ _ _) _ _

/-! ### Checksums -/

theorem sum8_lt (l : List Byte) : sum8 l < 256 := Nat.mod_lt _ (by decide)

theorem toNat_payloadChecksum (l : List Byte) : (payloadChecksum l).toNat = 255 - sum8 l := by
  simp only [payloadChecksum, BitVec.toNat_ofNat]
  omega

@[simp] theorem calcChecksum_nil : calcChecksum [] = 0 := rfl

/-- The checksum covers all bytes but the last (R120, R126). -/
@[simp] theorem calcChecksum_concat (l : List Byte) (v : Byte) :
    calcChecksum (l ++ [v]) = payloadChecksum l := by
  simp [calcChecksum]

@[simp] theorem validChecksum_nil : validChecksum [] = true := rfl

@[simp] theorem validChecksum_concat (l : List Byte) (v : Byte) :
    validChecksum (l ++ [v]) = (v == payloadChecksum l) := by
  simp [validChecksum]

/-- Bytes 0 to 8. -/
def Memory.payload (m : Memory) : List Byte := List.ofFn fun i : Fin 9 => m.read i.castSucc

theorem bytes_eq_payload (m : Memory) : m.bytes = m.payload ++ [m.read 9] := by
  have h := List.ofFn_succ_last (f := m.read)
  exact h

theorem payload_congr {m n : Memory} (h : ∀ a : Fin 10, a ≠ 9 → m.read a = n.read a) :
    m.payload = n.payload := by
  simp only [Memory.payload]
  congr 1
  funext i
  exact h _ (by intro e; have := congrArg Fin.val e; simp at this; omega)

/-- `ck(STATE)` is the checksum of bytes 0 to 8 (R120). -/
theorem ck_eq (m : Memory) : m.ck = payloadChecksum m.payload := by
  rw [Memory.ck, bytes_eq_payload, calcChecksum_concat]

theorem ck_congr {m n : Memory} (h : ∀ a : Fin 10, a ≠ 9 → m.read a = n.read a) : m.ck = n.ck := by
  rw [ck_eq, ck_eq, payload_congr h]

theorem read_recompute (m : Memory) (a : Fin 10) :
    m.recompute.read a = if a = 9 then m.ck else m.read a := Memory.read_write _ _ _ _

@[simp] theorem ck_recompute (m : Memory) : m.recompute.ck = m.ck :=
  ck_congr fun a ha => by simp [read_recompute, ha]

/-- Recomputing twice is recomputing once (R121). -/
@[simp] theorem recompute_recompute (m : Memory) : m.recompute.recompute = m.recompute := by
  conv_lhs => rw [Memory.recompute, ck_recompute]
  exact Memory.write_write_self _ _ _

/-- The recomputed state is valid (R103, R127). -/
theorem validChecksum_recompute (m : Memory) : validChecksum m.recompute.bytes = true := by
  rw [bytes_eq_payload, validChecksum_concat, ← ck_eq, ck_recompute, read_recompute]
  simp

theorem wf_recompute {m : Memory} (h : m.wf) : m.recompute.wf := Memory.wf_write h _ _

end Sys2Proof.Machine
end

