-- ==== Sys2Proof/Laws/Codec.lean ====
section
/-! SUPPORT. The laws of the timing codec: the layout of a frame, what the decoder accepts, and that
packing undoes the wire order. -/

namespace Sys2Proof.Machine

/-! ### Lists of blocks of one length -/

section Blocks
variable {α β : Type}

theorem length_flatMap_const (f : α → List β) {k : Nat} (hf : ∀ x, (f x).length = k) (l : List α) :
    (l.flatMap f).length = k * l.length := by
  induction l with
  | nil => rfl
  | cons x l ih => simp [ih, hf, Nat.mul_succ, Nat.add_comm]

/-- Entry `k·i + j` of a list of blocks of length k is entry j of block i. -/
theorem getElem?_flatMap_const (f : α → List β) {k : Nat} (hf : ∀ x, (f x).length = k) (l : List α)
    (i j : Nat) (hi : i < l.length) (hj : j < k) :
    (l.flatMap f)[k * i + j]? = (f l[i])[j]? := by
  induction l generalizing i with
  | nil => cases hi
  | cons x l ih =>
    cases i with
    | zero => simp [List.getElem?_append_left (by rw [hf]; exact hj : j < (f x).length)]
    | succ i =>
      have hle : (f x).length ≤ k * (i + 1) + j := by rw [hf, Nat.mul_succ]; omega
      rw [List.flatMap_cons, List.getElem?_append_right hle, hf]
      have he : k * (i + 1) + j - k = k * i + j := by rw [Nat.mul_succ]; omega
      rw [he, ih i (by simpa using hi)]
      rfl

/-- Entry `k·i + j` of copies of one block of length k is entry j of the block. -/
theorem getElem?_replicate_flatten {k n : Nat} (b : List β) (hb : b.length = k) (i j : Nat)
    (hi : i < n) (hj : j < k) : ((List.replicate n b).flatten)[k * i + j]? = b[j]? := by
  have h := getElem?_flatMap_const (fun _ : Unit => b) (fun _ => hb) (List.replicate n ()) i j
    (by simpa using hi) hj
  have he : (List.replicate n ()).flatMap (fun _ => b) = (List.replicate n b).flatten := by
    simp [List.flatMap_def]
  rwa [he] at h

end Blocks

/-! ### The wire order -/

@[simp] theorem length_wireBits (b : Byte) : (wireBits b).length = 8 := by simp [wireBits]

@[simp] theorem length_wireBitsOf (l : List Byte) : (wireBitsOf l).length = 8 * l.length :=
  length_flatMap_const _ length_wireBits l

/-- Bit cell j carries bit 7 − (j mod 8) of byte j div 8 (spec/20_memory.md R64). -/
theorem getElem?_wireBitsOf (l : List Byte) (j : Nat) (h : j / 8 < l.length) :
    (wireBitsOf l)[j]? = some (l[j / 8].getLsbD (7 - j % 8)) := by
  have hj : j % 8 < 8 := Nat.mod_lt _ (by decide)
  have hg := getElem?_flatMap_const wireBits length_wireBits l (j / 8) (j % 8) h hj
  rw [Nat.div_add_mod] at hg
  rw [wireBitsOf, hg]
  simp [wireBits, List.getElem?_range hj]

set_option maxRecDepth 8000 in
/-- Packing a byte's wire bits gives the byte (R206). -/
theorem packByte_wireBits (b : Byte) : packByte (wireBits b) = b := by
  have h : ∀ n : Fin 256, packByte (wireBits (BitVec.ofFin (w := 8) n)) = BitVec.ofFin (w := 8) n := by
    decide
  exact h b.toFin

/-- Packing undoes the wire order (R206, R182). -/
theorem packBytes_wireBitsOf (l : List Byte) : packBytes l.length (wireBitsOf l) = l := by
  induction l with
  | nil => rfl
  | cons b l ih =>
    have ht : (wireBitsOf (b :: l)).take 8 = wireBits b := by
      simp [wireBitsOf, List.take_left' (length_wireBits b)]
    have hd : (wireBitsOf (b :: l)).drop 8 = wireBitsOf l := by
      simp [wireBitsOf, List.drop_left' (length_wireBits b)]
    simp only [List.length_cons, packBytes, ht, hd, packByte_wireBits, ih]

@[simp] theorem length_packBytes (n : Nat) (bits : List Bool) : (packBytes n bits).length = n := by
  induction n generalizing bits with
  | zero => rfl
  | succ n ih => simp [packBytes, ih]

/-! ### The frame -/

@[simp] theorem length_cell (p : Config.Params) (v : Bool) : (cell p v).length = 2 := rfl

theorem length_cells (p : Config.Params) (bits : List Bool) :
    (bits.flatMap (cell p)).length = 2 * bits.length :=
  length_flatMap_const _ (length_cell p) bits

/-- There is a footer mark, or none (spec/00_scope.md R9). -/
theorem footer_cases (p : Config.Params) :
    (p.footerMarkUs > 0 ∧ p.footerLen = 1) ∨ (p.footerMarkUs = 0 ∧ p.footerLen = 0) := by
  rcases Nat.eq_zero_or_pos p.footerMarkUs with h | h <;> simp [Config.Params.footerLen, h]

theorem footerLen_le_one (p : Config.Params) : p.footerLen ≤ 1 := by
  rcases footer_cases p with ⟨-, h⟩ | ⟨-, h⟩ <;> omega

/-- A frame is two pulses a bit, and its end (R182). -/
theorem length_frame (p : Config.Params) (l : List Byte) :
    (frame p l).length = 16 * l.length + p.footerLen + 1 := by
  simp only [frame, List.length_append, length_cells, length_wireBitsOf, frameEnd, Config.Params.footerLen]
  split <;> simp <;> omega

/-- The pulse of cell j, at 2j the mark and at 2j + 1 the space (R181, R182). -/
theorem getElem?_frame_cell (p : Config.Params) (l : List Byte) (j k : Nat)
    (hj : j / 8 < l.length) (hk : k < 2) :
    (frame p l)[2 * j + k]? = (cell p (l[j / 8].getLsbD (7 - j % 8)))[k]? := by
  have hl : j < (wireBitsOf l).length := by simp; omega
  have hb : (wireBitsOf l)[j] = l[j / 8].getLsbD (7 - j % 8) := by
    have := getElem?_wireBitsOf l j hj
    rwa [List.getElem?_eq_getElem hl, Option.some_inj] at this
  rw [frame, List.getElem?_append_left (by rw [length_cells]; omega),
    getElem?_flatMap_const (cell p) (length_cell p) _ j k hl hk, hb]

/-- The end of a frame. -/
theorem getElem?_frame_end (p : Config.Params) (l : List Byte) (k : Nat) :
    (frame p l)[16 * l.length + k]? = (frameEnd p)[k]? := by
  rw [frame, List.getElem?_append_right (by rw [length_cells, length_wireBitsOf]; omega),
    length_cells, length_wireBitsOf]
  congr 1
  omega

/-! ### What the decoder accepts -/

/-- A cell gives a bit exactly when its samples carry that bit (R204). -/
theorem cellBit_eq_some (p : Config.Params) (m sp : Nat) (bit : Bool) :
    cellBit p m sp = some bit ↔ CellCarries p m sp bit := by
  simp only [cellBit, CellCarries]
  cases bit <;> cases p.matchMark m p.bitMarkUs <;>
    cases p.matchSpace sp p.oneSpaceUs <;> cases p.matchSpace sp p.zeroSpaceUs <;> simp

/-- Cell j from two samples on is cell j + 1. -/
theorem cellAt_succ {p : Config.Params} {rt : Nat → Option Nat} {off j : Nat} {bit : Bool} :
    CellAt p rt (off + 2) j bit ↔ CellAt p rt off (j + 1) bit := by
  simp only [CellAt, show off + 2 + 2 * j = off + 2 * (j + 1) by omega]

/-- n + 1 cells carry bits if the first does and the n others do. -/
theorem CellsCarry.cons {p : Config.Params} {rt : Nat → Option Nat} {off n : Nat} {bit : Bool}
    (h : CellAt p rt off 0 bit) (ht : CellsCarry p rt (off + 2) n) : CellsCarry p rt off (n + 1)
  | 0, _ => ⟨bit, h⟩
  | _ + 1, hj =>
    let ⟨bit, hb⟩ := ht _ (Nat.lt_of_succ_lt_succ hj)
    ⟨bit, cellAt_succ.1 hb⟩

theorem CellsCarry.tail {p : Config.Params} {rt : Nat → Option Nat} {off n : Nat}
    (h : CellsCarry p rt off (n + 1)) : CellsCarry p rt (off + 2) n := fun _ hj =>
  let ⟨bit, hb⟩ := h _ (Nat.succ_lt_succ hj)
  ⟨bit, cellAt_succ.2 hb⟩

theorem CarriesBytes.cellsCarry {p : Config.Params} {rt : Nat → Option Nat} {off : Nat}
    {bytes : List Byte} (h : CarriesBytes p rt off bytes) :
    CellsCarry p rt off (8 * bytes.length) := fun j hj => ⟨_, h j hj⟩

/-- A cell that carries a bit is decoded to it, and the decode goes on (R204). -/
theorem decodeCells_cons {p : Config.Params} {rt : Nat → Option Nat} {pos : Nat} {bit : Bool} (n : Nat)
    (h : CellAt p rt pos 0 bit) :
    decodeCells p rt pos (n + 1) = (decodeCells p rt (pos + 2) n).map (bit :: ·) := by
  obtain ⟨m, sp, hm, hs, hc⟩ := h
  have hm : rt pos = some m := hm
  have hs : rt (pos + 1) = some sp := hs
  simp only [decodeCells, hm, hs, (cellBit_eq_some ..).2 hc]
  cases decodeCells p rt (pos + 2) n <;> rfl

/-- Everything n cells can decode to: the bits they carry; or, at the first that carries none, a
mismatch or ReadUnwritten of one of its samples (R204, R200). -/
theorem decodeCells_cases (p : Config.Params) (rt : Nat → Option Nat) (pos n : Nat) :
    (∃ bits, decodeCells p rt pos n = .ok bits ∧ bits.length = n ∧
      ∀ (i : Nat) (h : i < bits.length), CellAt p rt pos i bits[i]) ∨
    ∃ k < n, CellsCarry p rt pos k ∧ (∀ bit, ¬ CellAt p rt pos k bit) ∧
      ((decodeCells p rt pos n = .error (.failed .decMismatch) ∧
          (rt (pos + 2 * k)).isSome ∧ (rt (pos + 2 * k + 1)).isSome) ∨
        ∃ i, decodeCells p rt pos n = .error (.unwritten i) ∧ rt i = none ∧
          (i = pos + 2 * k ∨ i = pos + 2 * k + 1)) := by
  induction n generalizing pos with
  | zero => exact .inl ⟨[], rfl, rfl, fun i h => absurd h (Nat.not_lt_zero i)⟩
  | succ n ih =>
    have first : CellsCarry p rt pos 0 := fun j h => absurd h (Nat.not_lt_zero j)
    cases hm : rt pos with
    | none =>
      refine .inr ⟨0, by omega, first, ?_, .inr ⟨pos, by simp only [decodeCells, hm], hm, .inl rfl⟩⟩
      rintro bit ⟨m, sp, h, -, -⟩
      simp [hm] at h
    | some m =>
    cases hs : rt (pos + 1) with
    | none =>
      refine .inr ⟨0, by omega, first, ?_,
        .inr ⟨pos + 1, by simp only [decodeCells, hm, hs], hs, .inr rfl⟩⟩
      rintro bit ⟨m, sp, -, h, -⟩
      simp [hs] at h
    | some sp =>
    cases hc : cellBit p m sp with
    | none =>
      refine .inr ⟨0, by omega, first, ?_, .inl ⟨by simp only [decodeCells, hm, hs, hc],
        Option.isSome_iff_exists.2 ⟨m, hm⟩, Option.isSome_iff_exists.2 ⟨sp, hs⟩⟩⟩
      rintro bit ⟨m', sp', h1, h2, h3⟩
      obtain rfl : m = m' := Option.some.inj (hm.symm.trans h1)
      obtain rfl : sp = sp' := Option.some.inj (hs.symm.trans h2)
      simp [(cellBit_eq_some ..).2 h3] at hc
    | some bit =>
    have h0 : CellAt p rt pos 0 bit := ⟨m, sp, hm, hs, (cellBit_eq_some ..).1 hc⟩
    rw [decodeCells_cons n h0]
    rcases ih (pos + 2) with ⟨bits, hd, hl, hb⟩ | ⟨k, hk, hbefore, hbad, h⟩
    · rw [hd]
      refine .inl ⟨bit :: bits, rfl, by simp [hl], fun i hi => ?_⟩
      cases i with
      | zero => exact h0
      | succ i => exact cellAt_succ.1 (hb i (by simpa using hi))
    · rw [show pos + 2 + 2 * k = pos + 2 * (k + 1) by omega] at h
      refine .inr ⟨k + 1, by omega, hbefore.cons h0, fun b hb => hbad b (cellAt_succ.2 hb), ?_⟩
      rcases h with ⟨hd, h⟩ | ⟨i, hd, h⟩ <;> rw [hd]
      · exact .inl ⟨rfl, h⟩
      · exact .inr ⟨i, rfl, h⟩

/-- The cells decode to bits exactly when the samples carry them (R204). -/
theorem decodeCells_ok (p : Config.Params) (rt : Nat → Option Nat) (pos n : Nat) (bits : List Bool) :
    decodeCells p rt pos n = .ok bits ↔
      bits.length = n ∧ ∀ (i : Nat) (h : i < bits.length), CellAt p rt pos i bits[i] := by
  induction n generalizing pos bits with
  | zero =>
    constructor
    · intro h
      cases h
      exact ⟨rfl, fun i h => absurd h (Nat.not_lt_zero i)⟩
    · rintro ⟨h, -⟩
      cases List.length_eq_zero_iff.1 h
      rfl
  | succ n ih =>
    constructor
    · intro h
      rcases decodeCells_cases p rt pos (n + 1) with ⟨bits', hd, hb⟩ | ⟨k, -, -, -, ⟨hd, -⟩ | ⟨i, hd, -⟩⟩
      · cases hd.symm.trans h
        exact hb
      · cases hd.symm.trans h
      · cases hd.symm.trans h
    · rintro ⟨hl, hb⟩
      cases bits with
      | nil => cases hl
      | cons bit bits =>
        have ht : decodeCells p rt (pos + 2) n = .ok bits := (ih _ _).2
          ⟨by simpa using hl, fun i hi => cellAt_succ.2 (hb (i + 1) (by simpa using hi))⟩
        rw [decodeCells_cons n (hb 0 (by simp)), ht]
        rfl

/-- The first cell that fails ends the decode (R204). -/
theorem decodeCells_mismatch {p : Config.Params} {rt : Nat → Option Nat} {pos n k : Nat}
    (hk : k < n) (hbefore : CellsCarry p rt pos k)
    {m sp : Nat} (hm : rt (pos + 2 * k) = some m) (hs : rt (pos + 2 * k + 1) = some sp)
    (hbad : ∀ bit, ¬ CellCarries p m sp bit) :
    decodeCells p rt pos n = .error (.failed .decMismatch) := by
  obtain ⟨n, rfl⟩ : ∃ n', n = n' + 1 := ⟨n - 1, by omega⟩
  induction k generalizing pos n with
  | zero =>
    have hc : cellBit p m sp = none := by
      cases hc : cellBit p m sp with
      | none => rfl
      | some bit => exact absurd ((cellBit_eq_some ..).1 hc) (hbad bit)
    have hm : rt pos = some m := hm
    have hs : rt (pos + 1) = some sp := hs
    simp only [decodeCells, hm, hs, hc]
  | succ k ih =>
    obtain ⟨n, rfl⟩ : ∃ n', n = n' + 1 := ⟨n - 1, by omega⟩
    obtain ⟨bit, h0⟩ := hbefore 0 (by omega)
    rw [decodeCells_cons _ h0, ih hbefore.tail (by rwa [show pos + 2 + 2 * k = pos + 2 * (k + 1) by omega])
      (by rwa [show pos + 2 + 2 * k = pos + 2 * (k + 1) by omega]) n (by omega)]
    rfl

/-- A cell with an unwritten sample, after cells that carry bits, stops the decode. -/
theorem decodeCells_unwritten {p : Config.Params} {rt : Nat → Option Nat} {pos n k : Nat}
    (hk : k < n) (hbefore : CellsCarry p rt pos k)
    (h : rt (pos + 2 * k) = none ∨ rt (pos + 2 * k + 1) = none) :
    ∃ i, decodeCells p rt pos n = .error (.unwritten i) := by
  obtain ⟨n, rfl⟩ : ∃ n', n = n' + 1 := ⟨n - 1, by omega⟩
  induction k generalizing pos n with
  | zero =>
    have h : rt pos = none ∨ rt (pos + 1) = none := h
    cases hm : rt pos with
    | none => exact ⟨pos, by simp only [decodeCells, hm]⟩
    | some m =>
      have hs : rt (pos + 1) = none := h.resolve_left (by simp [hm])
      exact ⟨pos + 1, by simp only [decodeCells, hm, hs]⟩
  | succ k ih =>
    obtain ⟨n, rfl⟩ : ∃ n', n = n' + 1 := ⟨n - 1, by omega⟩
    obtain ⟨bit, h0⟩ := hbefore 0 (by omega)
    obtain ⟨i, hr⟩ := ih hbefore.tail
      (by rwa [show pos + 2 + 2 * k = pos + 2 * (k + 1) by omega]) n (by omega)
    exact ⟨i, by rw [decodeCells_cons _ h0, hr]; rfl⟩

/-- How the check of one sample can end. -/
theorem checkSample_cases (rt : Nat → Option Nat) (i : Nat) (f : Nat → Bool) :
    ((∃ d, rt i = some d ∧ f d = true) ∧ checkSample rt i f = .ok ()) ∨
    checkSample rt i f = .error (.failed .decMismatch) ∨
    (rt i = none ∧ checkSample rt i f = .error (.unwritten i)) := by
  cases h : rt i with
  | none => exact .inr (.inr ⟨rfl, by simp only [checkSample, h]⟩)
  | some d =>
    cases hd : f d with
    | true => exact .inl ⟨⟨d, rfl, hd⟩, by simp [checkSample, h, hd]⟩
    | false => exact .inr (.inl (by simp [checkSample, h, hd]))

/-- Where the gap is, after the cells and the footer mark. -/
theorem end_eq (p : Config.Params) (j : DecodeJob) :
    j.off + 2 * j.nbits + p.footerLen = j.off + j.need p := by
  simp only [DecodeJob.need]
  omega

/-- Everything the check of the frame's end can end in, after cells that all carry bits: the end
matches; a mismatch; or ReadUnwritten of a sample that the decode reads (R205). -/
theorem checkEnd_cases {p : Config.Params} {rt : Nat → Option Nat} {j : DecodeJob} (hp : j.Passes p)
    (hc : CellsCarry p rt j.off j.nbits) :
    (EndMatches p rt j.rtLen j.off j.nbits ∧ checkEnd p rt j = .ok ()) ∨
    checkEnd p rt j = .error (.failed .decMismatch) ∨
    ∃ i, j.Reads p rt i ∧ rt i = none ∧ checkEnd p rt j = .error (.unwritten i) := by
  rw [EndMatches, end_eq]
  have gap (hf : FooterMatches p rt j.off j.nbits) (r : Except DecodeStop Unit)
      (hr : r = if j.off + j.need p < j.rtLen then
        checkSample rt (j.off + j.need p) (p.matchAtLeast · p.gapUs) else .ok ()) :
      ((FooterMatches p rt j.off j.nbits ∧ (j.off + j.need p < j.rtLen →
        ∃ g, rt (j.off + j.need p) = some g ∧ p.matchAtLeast g p.gapUs = true)) ∧ r = .ok ()) ∨
      r = .error (.failed .decMismatch) ∨
      ∃ i, j.Reads p rt i ∧ rt i = none ∧ r = .error (.unwritten i) := by
    by_cases hl : j.off + j.need p < j.rtLen
    · rw [if_pos hl] at hr
      rcases checkSample_cases rt (j.off + j.need p) (p.matchAtLeast · p.gapUs) with
        ⟨hg, hd⟩ | hd | ⟨hn, hd⟩ <;> rw [hd] at hr
      · exact .inl ⟨⟨hf, fun _ => hg⟩, hr⟩
      · exact .inr (.inl hr)
      · exact .inr (.inr ⟨_, .gap hp hc hf hl, hn, hr⟩)
    · rw [if_neg hl] at hr
      exact .inl ⟨⟨hf, fun h => absurd h hl⟩, hr⟩
  by_cases hf : p.footerMarkUs > 0
  · rcases checkSample_cases rt (j.off + 2 * j.nbits) (p.matchMark · p.footerMarkUs) with
      ⟨hg, hd⟩ | hd | ⟨hn, hd⟩
    · exact gap (fun _ => hg) _ (by simp only [checkEnd, if_pos hf, hd])
    · exact .inr (.inl (by simp only [checkEnd, if_pos hf, hd]))
    · exact .inr (.inr ⟨_, .footer hp hc hf, hn, by simp only [checkEnd, if_pos hf, hd]⟩)
  · exact gap (fun h => absurd h hf) _ (by simp only [checkEnd, if_neg hf])

/-- The bit counts of R203. -/
theorem nbitsOk_iff (j : DecodeJob) : j.nbitsOk = true ↔
    (j.strict = true → j.nbits = 80) ∧ 8 ≤ j.nbits ∧ j.nbits ≤ 80 ∧ j.nbits % 8 = 0 := by
  simp only [DecodeJob.nbitsOk, Config.stateBits]
  cases j.strict <;> simp <;> omega

/-- A decode that passes the checks of R203 ends as its cells do, where they end it. -/
theorem decodeBytes_of_cells {p : Config.Params} {rt : Nat → Option Nat} {j : DecodeJob} {e : DecodeStop}
    (hp : j.Passes p) (hd : decodeCells p rt j.off j.nbits = .error e) :
    decodeBytes p rt j = .error e := by
  have hl : ¬ j.off + j.need p > j.rtLen := Nat.not_lt.2 hp.2
  simp only [decodeBytes, (nbitsOk_iff j).2 hp.1, hl, hd, Bool.not_true, Bool.false_eq_true, if_false]

/-- A decode whose cells all carry bits ends as the check of the frame's end does, where that fails. -/
theorem decodeBytes_of_end {p : Config.Params} {rt : Nat → Option Nat} {j : DecodeJob} {bits : List Bool}
    {e : DecodeStop} (hp : j.Passes p) (hd : decodeCells p rt j.off j.nbits = .ok bits)
    (he : checkEnd p rt j = .error e) : decodeBytes p rt j = .error e := by
  have hl : ¬ j.off + j.need p > j.rtLen := Nat.not_lt.2 hp.2
  simp only [decodeBytes, (nbitsOk_iff j).2 hp.1, hl, hd, he, Bool.not_true, Bool.false_eq_true, if_false]

/-- A decode whose samples all match gives the bytes, unless the mode is strict and their checksum is
wrong. -/
theorem decodeBytes_of_match {p : Config.Params} {rt : Nat → Option Nat} {j : DecodeJob} {bits : List Bool}
    (hp : j.Passes p) (hd : decodeCells p rt j.off j.nbits = .ok bits) (he : checkEnd p rt j = .ok ()) :
    decodeBytes p rt j =
      if j.strict && !validChecksum (packBytes (j.nbits / 8) bits) then .error (.failed .decChecksum)
      else .ok (packBytes (j.nbits / 8) bits) := by
  have hl : ¬ j.off + j.need p > j.rtLen := Nat.not_lt.2 hp.2
  simp only [decodeBytes, (nbitsOk_iff j).2 hp.1, hl, hd, he, Bool.not_true, Bool.false_eq_true, if_false]

/-- A decode that does not pass the checks of R203 reads nothing. -/
theorem decodeBytes_of_not_passes {p : Config.Params} {j : DecodeJob} (hp : ¬ j.Passes p) :
    ∃ e ∈ [Completion.decNbits, .decShort], ∀ rt, decodeBytes p rt j = .error (.failed e) := by
  cases hn : j.nbitsOk with
  | false => exact ⟨.decNbits, by simp, fun rt => by simp only [decodeBytes, hn, Bool.not_false, if_true]⟩
  | true =>
    have hl : j.off + j.need p > j.rtLen := Nat.not_le.1 fun hl => hp ⟨(nbitsOk_iff j).1 hn, hl⟩
    exact ⟨.decShort, by simp, fun rt => by
      simp only [decodeBytes, hn, hl, Bool.not_true, Bool.false_eq_true, if_true, if_false]⟩

/-- Everything a decode can end in: the bytes that the cells carry; one of the decoder's completion
codes; or ReadUnwritten of a sample that it reads (R203 to R207). -/
theorem decodeBytes_cases (p : Config.Params) (rt : Nat → Option Nat) (j : DecodeJob) :
    (∃ bits, j.Passes p ∧ decodeCells p rt j.off j.nbits = .ok bits ∧
      EndMatches p rt j.rtLen j.off j.nbits ∧
      (j.strict = true → validChecksum (packBytes (j.nbits / 8) bits) = true) ∧
      decodeBytes p rt j = .ok (packBytes (j.nbits / 8) bits)) ∨
    (∃ e, e ∈ [Completion.decNbits, .decShort, .decMismatch, .decChecksum] ∧
      decodeBytes p rt j = .error (.failed e)) ∨
    (∃ i, j.Reads p rt i ∧ rt i = none ∧ decodeBytes p rt j = .error (.unwritten i)) := by
  by_cases hp : j.Passes p
  · rcases decodeCells_cases p rt j.off j.nbits with ⟨bits, hd, hl, hb⟩ | ⟨k, hk, hc, -, h⟩
    · have hc : CellsCarry p rt j.off j.nbits := fun i hi => ⟨_, hb i (by omega)⟩
      rcases checkEnd_cases hp hc with ⟨hm, he⟩ | he | ⟨i, hi, hn, he⟩
      · have h := decodeBytes_of_match hp hd he
        by_cases hv : (j.strict && !validChecksum (packBytes (j.nbits / 8) bits)) = true
        · exact .inr (.inl ⟨.decChecksum, by simp, by rw [h, if_pos hv]⟩)
        · refine .inl ⟨bits, hp, hd, hm, fun hs => ?_, by rw [h, if_neg hv]⟩
          simpa [hs] using hv
      · exact .inr (.inl ⟨.decMismatch, by simp, decodeBytes_of_end hp hd he⟩)
      · exact .inr (.inr ⟨i, hi, hn, decodeBytes_of_end hp hd he⟩)
    · rcases h with ⟨hd, -⟩ | ⟨i, hd, hn, rfl | rfl⟩
      · exact .inr (.inl ⟨.decMismatch, by simp, decodeBytes_of_cells hp hd⟩)
      · exact .inr (.inr ⟨_, .mark hp hk hc, hn, decodeBytes_of_cells hp hd⟩)
      · exact .inr (.inr ⟨_, .space hp hk hc, hn, decodeBytes_of_cells hp hd⟩)
  · obtain ⟨e, he, h⟩ := decodeBytes_of_not_passes hp
    exact .inr (.inl ⟨e, by revert he; simp; tauto, h rt⟩)

/-- Samples that carry bytes and end as a frame does decode to those bytes, unless the mode is strict
and their checksum is wrong (R204 to R207). -/
theorem decodeBytes_of_carries {p : Config.Params} {rt : Nat → Option Nat} {j : DecodeJob}
    {bytes : List Byte} (hlen : j.nbits = 8 * bytes.length) (hp : j.Passes p)
    (hc : CarriesBytes p rt j.off bytes) (he : EndMatches p rt j.rtLen j.off j.nbits) :
    decodeBytes p rt j =
      if j.strict && !validChecksum bytes then .error (.failed .decChecksum) else .ok bytes := by
  have hcells : decodeCells p rt j.off j.nbits = .ok (wireBitsOf bytes) := by
    rw [decodeCells_ok]
    refine ⟨by simp [hlen], fun i hi => ?_⟩
    have hb : i / 8 < bytes.length := by
      have : i < 8 * bytes.length := by simpa using hi
      omega
    have hw := getElem?_wireBitsOf bytes i hb
    rw [List.getElem?_eq_getElem hi, Option.some_inj] at hw
    have h := hc i (by simpa using hi)
    rwa [List.getD_eq_getElem _ _ hb, ← hw] at h
  have hend : checkEnd p rt j = .ok () := by
    obtain ⟨hf, hg⟩ := he
    have hg : j.off + j.need p < j.rtLen →
        ∃ g, rt (j.off + j.need p) = some g ∧ p.matchAtLeast g p.gapUs = true := by
      rwa [end_eq] at hg
    have gap : (if j.off + j.need p < j.rtLen then
        checkSample rt (j.off + j.need p) (p.matchAtLeast · p.gapUs) else .ok ()) = .ok () := by
      split
      · obtain ⟨g, h1, h2⟩ := hg ‹_›
        simp only [checkSample, h1, h2, if_true]
      · rfl
    simp only [checkEnd, gap]
    split
    · obtain ⟨d, h1, h2⟩ := hf ‹_›
      simp only [checkSample, h1, h2, if_true]
    · rfl
  have hpack : packBytes (j.nbits / 8) (wireBitsOf bytes) = bytes := by
    rw [show j.nbits / 8 = bytes.length by omega]
    exact packBytes_wireBitsOf _
  rw [decodeBytes_of_match hp hcells hend, hpack]

/-- A capture that holds a frame, as far as the gap or with it, carries the frame's bytes and ends as a
frame does (P1 and P2 of spec/00_scope.md R14). -/
theorem carries_of_frame {p : Config.Params} {rt : Nat → Option Nat} {rtLen off : Nat} {bytes : List Byte}
    (hl : off + (frame p bytes).length ≤ rtLen + 1)
    (h : ∀ k < (frame p bytes).length, off + k < rtLen →
      rt (off + k) = ((frame p bytes)[k]?).map Pulse.durationUs) :
    CarriesBytes p rt off bytes ∧ EndMatches p rt rtLen off (8 * bytes.length) := by
  rw [length_frame] at hl h
  have tail (k : Nat) (hk : k ≤ p.footerLen) (hg : off + (16 * bytes.length + k) < rtLen) :
      rt (off + 2 * (8 * bytes.length) + k) = ((frameEnd p)[k]?).map Pulse.durationUs := by
    rw [← getElem?_frame_end p bytes k, ← h (16 * bytes.length + k) (by omega) hg]
    congr 1
    omega
  refine ⟨fun j hj => ?_, fun hf => ?_, fun hg => ?_⟩
  · have hb : j / 8 < bytes.length := by omega
    rw [List.getD_eq_getElem _ _ hb]
    generalize hbit : bytes[j / 8].getLsbD (7 - j % 8) = bit
    have h0 := h (2 * j) (by omega) (by omega)
    have h1 := h (2 * j + 1) (by omega) (by omega)
    rw [← Nat.add_zero (2 * j), getElem?_frame_cell p bytes j 0 hb (by decide)] at h0
    rw [getElem?_frame_cell p bytes j 1 hb (by decide), hbit] at h1
    refine ⟨p.bitMarkUs, if bit then p.oneSpaceUs else p.zeroSpaceUs, h0, h1, p.mark_self _, ?_⟩
    cases bit
    · exact ⟨p.zero_not_one, fun _ => p.space_self _⟩
    · exact ⟨p.space_self _, fun h => Bool.noConfusion h⟩
  · have hn : p.footerLen = 1 := if_pos hf
    refine ⟨p.footerMarkUs, ?_, p.mark_self _⟩
    have := tail 0 (Nat.zero_le _) (by omega)
    rwa [frameEnd, if_pos hf] at this
  · refine ⟨p.gapUs, ?_, p.atLeast_self _⟩
    rw [tail p.footerLen le_rfl (by omega)]
    rcases footer_cases p with ⟨hf, hn⟩ | ⟨hf, hn⟩
    · rw [hn, frameEnd, if_pos hf]
      rfl
    · rw [hn, frameEnd, hf]
      rfl

/-! ### What the decoder reads -/

/-- A decode reads samples from the offset on, below RT_LEN, and no more than the cells, a footer mark
and a gap (R200). -/
theorem DecodeJob.Reads.bounds {p : Config.Params} {rt : Nat → Option Nat} {j : DecodeJob} {i : Nat}
    (h : j.Reads p rt i) : j.off ≤ i ∧ i < j.off + 2 * j.nbits + 2 ∧ i < j.rtLen := by
  have hf := footerLen_le_one p
  cases h with
  | mark hp hk hc | space hp hk hc =>
    have := hp.2
    simp only [DecodeJob.need] at this
    omega
  | footer hp hc hf =>
    have := hp.2
    simp only [DecodeJob.need, Config.Params.footerLen, hf, if_true] at this
    omega
  | gap hp hc hf hl =>
    simp only [DecodeJob.need] at hl ⊢
    omega

/-- Cells that all carry bits decode. -/
theorem decodeCells_of_carry {p : Config.Params} {rt : Nat → Option Nat} {pos n : Nat}
    (h : CellsCarry p rt pos n) : ∃ bits, decodeCells p rt pos n = .ok bits := by
  rcases decodeCells_cases p rt pos n with ⟨bits, hd, -⟩ | ⟨k, hk, -, hbad, -⟩
  · exact ⟨bits, hd⟩
  · obtain ⟨bit, hb⟩ := h k hk
    exact absurd hb (hbad bit)

/-- A decode that reads an unwritten sample stops (R201). -/
theorem decodeBytes_unwritten {p : Config.Params} {rt : Nat → Option Nat} {j : DecodeJob} {i : Nat}
    (h : j.Reads p rt i) (hn : rt i = none) : ∃ k, decodeBytes p rt j = .error (.unwritten k) := by
  cases h with
  | mark hp hk hc =>
    obtain ⟨k, hd⟩ := decodeCells_unwritten hk hc (.inl hn)
    exact ⟨k, decodeBytes_of_cells hp hd⟩
  | space hp hk hc =>
    obtain ⟨k, hd⟩ := decodeCells_unwritten hk hc (.inr hn)
    exact ⟨k, decodeBytes_of_cells hp hd⟩
  | footer hp hc hf =>
    obtain ⟨bits, hd⟩ := decodeCells_of_carry hc
    refine ⟨j.off + 2 * j.nbits, decodeBytes_of_end hp hd ?_⟩
    simp only [checkEnd, if_pos hf, checkSample, hn]
  | gap hp hc hf hl =>
    obtain ⟨bits, hd⟩ := decodeCells_of_carry hc
    refine ⟨j.off + j.need p, decodeBytes_of_end hp hd ?_⟩
    by_cases hm : p.footerMarkUs > 0
    · obtain ⟨d, h1, h2⟩ := hf hm
      simp only [checkEnd, if_pos hm, if_pos hl, checkSample, h1, h2, if_true, hn]
    · simp only [checkEnd, if_neg hm, if_pos hl, checkSample, hn]

/-- Cells decode alike on samples that agree on all cells up to the first that carries no bit. -/
theorem decodeCells_congr {p : Config.Params} {rt rt' : Nat → Option Nat} {pos n : Nat}
    (h : ∀ k < n, CellsCarry p rt pos k →
      rt' (pos + 2 * k) = rt (pos + 2 * k) ∧ rt' (pos + 2 * k + 1) = rt (pos + 2 * k + 1)) :
    decodeCells p rt' pos n = decodeCells p rt pos n := by
  induction n generalizing pos with
  | zero => rfl
  | succ n ih =>
    obtain ⟨h1, h2⟩ := h 0 (by omega) fun j hj => absurd hj (Nat.not_lt_zero j)
    have h1 : rt' pos = rt pos := h1
    have h2 : rt' (pos + 1) = rt (pos + 1) := h2
    simp only [decodeCells, h1, h2]
    cases hm : rt pos with
    | none => rfl
    | some m =>
    cases hs : rt (pos + 1) with
    | none => rfl
    | some sp =>
    cases hb : cellBit p m sp with
    | none => simp only [hb]
    | some bit =>
    have h0 : CellAt p rt pos 0 bit := ⟨m, sp, hm, hs, (cellBit_eq_some ..).1 hb⟩
    rw [ih fun k hk hc => ?_]
    rw [show pos + 2 + 2 * k = pos + 2 * (k + 1) by omega]
    exact h (k + 1) (by omega) (hc.cons h0)

/-- A decode depends on the samples that it reads only (R210). -/
theorem decodeBytes_congr {p : Config.Params} {rt rt' : Nat → Option Nat} {j : DecodeJob}
    (h : ∀ i, j.Reads p rt i → rt' i = rt i) : decodeBytes p rt' j = decodeBytes p rt j := by
  by_cases hp : j.Passes p
  · have hcells : decodeCells p rt' j.off j.nbits = decodeCells p rt j.off j.nbits :=
      decodeCells_congr fun k hk hc => ⟨h _ (.mark hp hk hc), h _ (.space hp hk hc)⟩
    cases hd : decodeCells p rt j.off j.nbits with
    | error e => rw [decodeBytes_of_cells hp hd, decodeBytes_of_cells hp (hcells.trans hd)]
    | ok bits =>
    obtain ⟨hl, hb⟩ := (decodeCells_ok ..).1 hd
    have hc : CellsCarry p rt j.off j.nbits := fun i hi => ⟨_, hb i (by omega)⟩
    have gap (hf : FooterMatches p rt j.off j.nbits) : (if j.off + j.need p < j.rtLen then
        checkSample rt' (j.off + j.need p) (p.matchAtLeast · p.gapUs) else .ok ()) =
        if j.off + j.need p < j.rtLen then
          checkSample rt (j.off + j.need p) (p.matchAtLeast · p.gapUs) else .ok () := by
      split
      · rw [checkSample, checkSample, h _ (.gap hp hc hf ‹_›)]
      · rfl
    have hend : checkEnd p rt' j = checkEnd p rt j := by
      simp only [checkEnd]
      split
      · have hs : checkSample rt' (j.off + 2 * j.nbits) (p.matchMark · p.footerMarkUs) =
            checkSample rt (j.off + 2 * j.nbits) (p.matchMark · p.footerMarkUs) := by
          rw [checkSample, checkSample, h _ (.footer hp hc ‹_›)]
        rw [hs]
        rcases checkSample_cases rt (j.off + 2 * j.nbits) (p.matchMark · p.footerMarkUs) with
          ⟨hg, hd⟩ | hd | ⟨-, hd⟩ <;> simp only [hd]
        exact gap fun _ => hg
      · exact gap fun hf => absurd hf ‹_›
    cases he : checkEnd p rt j with
    | error e => rw [decodeBytes_of_end hp hd he, decodeBytes_of_end hp (hcells.trans hd) (hend.trans he)]
    | ok _ => rw [decodeBytes_of_match hp hd he, decodeBytes_of_match hp (hcells.trans hd) (hend.trans he)]
  · obtain ⟨e, -, he⟩ := decodeBytes_of_not_passes hp
    rw [he, he]

end Sys2Proof.Machine
end

