-- ==== Sys2Proof/Laws/Decode.lean ====
section
/-! SUPPORT. The laws of the command word: its fields, and what packing them gives. -/

namespace Sys2Proof

@[simp] theorem opField_pack (op a : Byte) (b : Half) : opField (pack op a b) = op := by
  apply BitVec.eq_of_getLsbD_eq
  intro i hi
  simp only [opField, pack, BitVec.getLsbD_extractLsb', BitVec.getLsbD_append, hi]
  rw [if_pos (by omega : 0 + i < 8)]
  simp

@[simp] theorem aField_pack (op a : Byte) (b : Half) : aField (pack op a b) = a := by
  apply BitVec.eq_of_getLsbD_eq
  intro i hi
  simp only [aField, pack, BitVec.getLsbD_extractLsb', BitVec.getLsbD_append, hi]
  rw [if_neg (by omega : ¬ 8 + i < 8), if_pos (by omega : 8 + i - 8 < 8)]
  simp

@[simp] theorem bField_pack (op a : Byte) (b : Half) : bField (pack op a b) = b := by
  apply BitVec.eq_of_getLsbD_eq
  intro i hi
  simp only [bField, pack, BitVec.getLsbD_extractLsb', BitVec.getLsbD_append, hi]
  rw [if_neg (by omega : ¬ 16 + i < 8), if_neg (by omega : ¬ 16 + i - 8 < 8),
    show 16 + i - 8 - 8 = i by omega]
  simp

/-- A word is its three fields. -/
theorem pack_fields (w : CommandWord) : pack (opField w) (aField w) (bField w) = w := by
  apply BitVec.eq_of_getLsbD_eq
  intro i hi
  simp only [opField, aField, bField, pack, BitVec.getLsbD_extractLsb', BitVec.getLsbD_append]
  split
  · simp_all
  · split
    · have : 8 + (i - 8) = i := by omega
      simp_all
    · have : 16 + (i - 8 - 8) = i := by omega
      simp_all
      omega

/-- Decoding a packed word. -/
theorem decode_pack (op a : Byte) (b : Half) : decode (pack op a b) = decodeFields op a b := by
  simp [decode]

theorem fields_pack (op a : Byte) (b : Half) : CommandWord.fields (pack op a b) = ⟨op, a, b⟩ := by
  have h : CommandWord.fields (pack op a b) =
    ⟨opField (pack op a b), aField (pack op a b), bField (pack op a b)⟩ := rfl
  rw [h, opField_pack, aField_pack, bField_pack]

end Sys2Proof
end

