-- ==== Sys2Proof/Laws/Exec.lean ====
section
/-! SUPPORT. Said once, everything a command can do: `exec_effect`. Claims about all commands cite
it and never unfold `exec`. -/

namespace Sys2Proof.Machine

/-- The field a setter writes. -/
def fieldWritten : Instr → Option BitField
  | .setTemp _ => some .temp
  | .setMode _ => some .mode
  | .setFan _ => some .fanSpeed
  | .setPower _ => some .power
  | .setWifi _ => some .wifi
  | .setTurbo _ => some .turbo
  | .setEcono _ => some .econo
  | .setLight _ => some .light
  | .setSwingH _ => some .swingH
  | _ => none

/-- The commands that write RESULT (R40). -/
def writesResult : Instr → Bool
  | .chkCalc | .chkValid | .chkCalcIn | .chkValidIn | .getTemp | .getMode | .getFan | .getPower
  | .getWifi | .getTurbo | .getEcono | .getLight | .getSwingH => true
  | _ => false

/-- The commands that can raise, and with which codes (R230). -/
def canRaise : Instr → List Completion
  | .setRaw => [.lengthMismatch]
  | .decode _ _ | .decodeStrict _ _ => [.decNbits, .decShort, .decMismatch, .decChecksum]
  | _ => []

/-- The state buffer with its checksum recomputed (R121). -/
structure Recomputed (m n : Memory) : Prop where
  wf : m.wf → n.wf
  keep : ∀ a, a ≠ 9 → n.read a = m.read a
  nine : n.read 9 = m.ck
  valid : validChecksum n.bytes = true

theorem recomputed (m : Memory) : Recomputed m m.recompute where
  wf := wf_recompute
  keep a ha := by rw [read_recompute, if_neg ha]
  nine := by rw [read_recompute, if_pos rfl]
  valid := validChecksum_recompute m

/-- What a command does to the state when it has a next state. The new state buffer is a variable
with what is known of it beside it, so that a case analysis never unfolds a memory operation. -/
inductive Effect (s : State) : Instr → State → Prop where
  | nop : Effect s .nop (s.withStatus .ok)
  | raised {i : Instr} {e : Completion} (h : e ∈ canRaise i) : Effect s i (s.withStatus e)
  | reset {m : Memory} (hwf : m.wf) (hr : ∀ a, m.read a = 0) :
      Effect s .reset ((s.withMem m).withStatus .ok)
  | setRaw {m : Memory} (hwf : m.wf) (hr : ∀ a : Fin 10, s.inByte? a.val = some (m.read a)) :
      Effect s .setRaw ((s.withMem m).withStatus .ok)
  | getRaw {m : Memory} (hm : Recomputed s.mem m) :
      Effect s .getRaw (((s.withMem m).withOutBytes m.read).withStatus .ok)
  | result {i : Instr} {v : Half} (h : writesResult i = true) (hv : v.toNat < 256) :
      Effect s i ((s.withResult v).withStatus .ok)
  | field {i : Instr} {f : BitField} {v : Byte} {m : Memory} (h : fieldWritten i = some f)
      (hwf : s.mem.wf → m.wf) (hr : ∀ a, m.read a =
        if a = f.place.byte then f.place.insert v (s.mem.read a) else s.mem.read a) :
      Effect s i ((s.withMem m).withStatus .ok)
  | offTimer {b : Half} {m : Memory} (hwf : s.mem.wf → m.wf)
      (hkeep : ∀ a : Fin 10, a.val < 4 ∨ a = 9 → m.read a = s.mem.read a)
      (hmask : ∀ (k : Fin 4) (a : Fin 10), a.val = 4 + k.val → m.read a =
        underMask Config.chosen.offTimerMask[k] (Config.chosen.offTimerEncode b)[k] (s.mem.read a))
      (henable : m.read 8 = BitField.offTimerEnable.place.insert (if b = 0 then 0 else 1) (s.mem.read 8)) :
      Effect s (.setOffTimer b) ((s.withMem m).withStatus .ok)
  | send {b : Half} {m : Memory} {r : TxRecord} (hm : Recomputed s.mem m)
      (hr : r = sendRecord Config.chosen b m.bytes) :
      Effect s (.send b) (((s.withMem m).withRecord r).withStatus .ok)
  | decoded {i : Instr} {a : Byte} {l : List Byte} (hi : ∃ b, i = .decode a b ∨ i = .decodeStrict a b)
      (ha : 8 ≤ a.toNat ∧ a.toNat ≤ 80 ∧ a.toNat % 8 = 0) (hl : l.length = a.toNat / 8) :
      Effect s i ((s.withDecoded a l).withStatus .ok)

theorem offTimerMem_keep (p : Config.Params) (b : Half) (m : Memory) (a : Fin 10)
    (ha : a.val < 4 ∨ a = 9) : (offTimerMem p b m).read a = m.read a := by
  have h : a ≠ 4 ∧ a ≠ 5 ∧ a ≠ 6 ∧ a ≠ 7 ∧ a ≠ 8 := by
    rcases ha with ha | rfl
    · refine ⟨?_, ?_, ?_, ?_, ?_⟩ <;> (rintro rfl; revert ha; decide)
    · decide
  simp only [offTimerMem, read_setField, read_writeUnder, BitField.place, h, if_false]

theorem offTimerMem_mask (p : Config.Params) (b : Half) (m : Memory) (k : Fin 4) (a : Fin 10)
    (ha : a.val = 4 + k.val) :
    (offTimerMem p b m).read a =
      underMask p.offTimerMask[k] (p.offTimerEncode b)[k] (m.read a) := by
  obtain ⟨a, h10⟩ := a
  simp only at ha
  subst ha
  simp only [offTimerMem, read_setField, read_writeUnder, BitField.place]
  fin_cases k <;> rfl

theorem offTimerMem_enable (p : Config.Params) (b : Half) (m : Memory) :
    (offTimerMem p b m).read 8 =
      BitField.offTimerEnable.place.insert (if b = 0 then 0 else 1) (m.read 8) := by
  simp only [offTimerMem, read_setField, read_writeUnder, BitField.place]
  rfl

/-- A field setter's effect, whatever it stores. -/
theorem setter_effect {i : Instr} {f : BitField} {v : Byte} {s t : State}
    (hi : fieldWritten i = some f) (h : setter f v s = .next t) : Effect s i t := by
  rw [← (finishMem_next _ _ _).1 h]
  exact .field hi (wf_setField · f v) (read_setField s.mem f v)

theorem toNat_zext16 (v : Byte) : (zext16 v).toNat = v.toNat := by
  simp only [zext16, BitVec.toNat_setWidth]
  have := v.isLt
  omega

theorem toNat_zext16_lt (v : Byte) : (zext16 v).toNat < 256 := by
  rw [toNat_zext16]; exact v.isLt

theorem toNat_truth_lt (b : Bool) : (truth b).toNat < 256 := by cases b <;> decide

/-- A decode command: the bytes it decodes are committed; else it raises or stops. -/
theorem decodeCommand_effect {i : Instr} {p : Config.Params} {strict : Bool} {a : Byte}
    {b : Half} {s t : State} (hi : i = .decode a b ∨ i = .decodeStrict a b)
    (h : decodeCommand p strict a b s = .next t) : Effect s i t := by
  rw [decodeCommand] at h
  rcases decodeBytes_cases p s.rtSample? (s.decodeJob strict a b) with
    ⟨bits, ⟨⟨-, h1, h2, h3⟩, -⟩, -, -, -, hd⟩ | ⟨e, he, hd⟩ | ⟨j, -, -, hd⟩ <;> rw [hd] at h
  · rw [← (finish_next _ _).1 h]
    exact .decoded ⟨b, hi⟩ ⟨h1, h2, h3⟩ (length_packBytes _ _)
  · rw [← (raise_next _ _ _).1 h]
    refine .raised ?_
    rcases hi with rfl | rfl <;> exact he
  · exact absurd h (unwritten_ne_next _ _)

/-- Everything a command can do. -/
theorem exec_effect {i : Instr} {s t : State} (h : exec i s = .next t) : Effect s i t := by
  cases i with
  | nop => rw [← (finish_next _ _).1 h]; exact .nop
  | reset => rw [← (finishMem_next _ _ _).1 h]; exact .reset (Memory.wf_ofFn _) (Memory.read_ofFn _)
  | setRaw =>
    have h : execSetRaw s = .next t := h
    rw [execSetRaw] at h
    split at h
    · rw [← (raise_next _ _ _).1 h]; exact .raised (by simp [canRaise])
    · rcases withIn_cases s Config.stateLen _ with ⟨i, -, -, he⟩ | ⟨l, hl, hr, he⟩ <;> rw [he] at h
      · exact absurd h (unwritten_ne_next _ _)
      · rw [← (finishMem_next _ _ _).1 h]
        refine .setRaw (Memory.wf_ofFn _) (fun a => ?_)
        have ha : a.val < l.length := by rw [hl]; exact a.isLt
        rw [Memory.read_ofFn, hr a.val ha, List.getD_eq_getElem _ _ ha]
  | getRaw => rw [← (finish_next _ _).1 h]; exact .getRaw (recomputed _)
  | chkCalc => rw [← (finishWith_next _ _ _).1 h]; exact .result rfl (toNat_zext16_lt _)
  | chkValid => rw [← (finishWith_next _ _ _).1 h]; exact .result rfl (toNat_truth_lt _)
  | chkCalcIn =>
    have h : execChkCalcIn s = .next t := h
    rw [execChkCalcIn] at h
    split at h
    · rw [← (finishWith_next _ _ _).1 h]; exact .result rfl (by decide)
    · rcases withIn_cases s (s.inLen.toNat - 1) _ with ⟨i, -, -, he⟩ | ⟨l, -, -, he⟩ <;> rw [he] at h
      · exact absurd h (unwritten_ne_next _ _)
      · rw [← (finishWith_next _ _ _).1 h]; exact .result rfl (toNat_zext16_lt _)
  | chkValidIn =>
    have h : execChkValidIn s = .next t := h
    rw [execChkValidIn] at h
    rcases withIn_cases s s.inLen.toNat _ with ⟨i, -, -, he⟩ | ⟨l, -, -, he⟩ <;> rw [he] at h
    · exact absurd h (unwritten_ne_next _ _)
    · rw [← (finishWith_next _ _ _).1 h]; exact .result rfl (toNat_truth_lt _)
  | setTemp a => exact setter_effect rfl h
  | setMode a => exact setter_effect rfl h
  | setFan a => exact setter_effect rfl h
  | setPower a => exact setter_effect rfl h
  | setWifi a => exact setter_effect rfl h
  | setTurbo a => exact setter_effect rfl h
  | setEcono a => exact setter_effect rfl h
  | setLight a => exact setter_effect rfl h
  | setSwingH a => exact setter_effect rfl h
  | getTemp =>
    rw [← (finishWith_next _ _ _).1 h]
    refine .result rfl ?_
    have hx : ((s.mem.field .temp)).toNat ≤ 15 := by
      simp only [Memory.field, Place.extract, BitField.place, BitVec.toNat_and]
      exact Nat.and_le_right
    rw [BitVec.toNat_add, toNat_zext16]
    have : (BitVec.ofNat 16 Config.tempMin).toNat = 16 := rfl
    omega
  | getMode => rw [← (finishWith_next _ _ _).1 h]; exact .result rfl (toNat_zext16_lt _)
  | getFan => rw [← (finishWith_next _ _ _).1 h]; exact .result rfl (toNat_zext16_lt _)
  | getPower => rw [← (finishWith_next _ _ _).1 h]; exact .result rfl (toNat_zext16_lt _)
  | getWifi => rw [← (finishWith_next _ _ _).1 h]; exact .result rfl (toNat_zext16_lt _)
  | getTurbo => rw [← (finishWith_next _ _ _).1 h]; exact .result rfl (toNat_zext16_lt _)
  | getEcono => rw [← (finishWith_next _ _ _).1 h]; exact .result rfl (toNat_zext16_lt _)
  | getLight => rw [← (finishWith_next _ _ _).1 h]; exact .result rfl (toNat_zext16_lt _)
  | getSwingH => rw [← (finishWith_next _ _ _).1 h]; exact .result rfl (toNat_zext16_lt _)
  | setOffTimer b =>
    rw [← (finishMem_next _ _ _).1 h]
    exact .offTimer (wf_offTimerMem · _ _)
      (offTimerMem_keep _ _ _) (offTimerMem_mask _ _ _) (offTimerMem_enable _ _ _)
  | send b => rw [← (finish_next _ _).1 h]; exact .send (recomputed _) rfl
  | decode a b => exact decodeCommand_effect (.inl rfl) h
  | decodeStrict a b => exact decodeCommand_effect (.inr rfl) h

/-! ### What a command answers, its result a record update -/

theorem exec_getRaw (s : State) : ∃ m, Recomputed s.mem m ∧ exec .getRaw s = .next { s with
    mem := m, outBytes := Vector.ofFn fun i => some (m.read i), status := some 0 } := by
  refine ⟨_, recomputed _, ?_⟩
  show execGetRaw s = _
  simp only [execGetRaw, finish, State.withMem, State.withOutBytes, State.withStatus, Completion.code]

theorem sendCommand_next (p : Config.Params) (b : Half) (s : State) : ∃ m, Recomputed s.mem m ∧
    sendCommand p b s = .next { s with
      mem := m, status := some 0, txLog := s.txLog ++ [sendRecord p b m.bytes] } := by
  refine ⟨_, recomputed _, ?_⟩
  simp only [sendCommand, finish, State.withMem, State.withRecord, State.withStatus, Completion.code]

theorem exec_send (b : Half) (s : State) : ∃ m, Recomputed s.mem m ∧ exec (.send b) s = .next { s with
    mem := m, status := some 0, txLog := s.txLog ++ [sendRecord Config.chosen b m.bytes] } :=
  sendCommand_next Config.chosen b s

/-- A decode command has a next state, or stops at an unwritten sample that it reads. -/
theorem decodeCommand_cases (p : Config.Params) (strict : Bool) (a : Byte) (b : Half) (s : State) :
    (∃ t, decodeCommand p strict a b s = .next t) ∨
    ∃ i, (s.decodeJob strict a b).Reads p s.rtSample? i ∧ s.rtSample? i = none ∧
      decodeCommand p strict a b s = unwritten (.rtSample i) := by
  rw [decodeCommand]
  rcases decodeBytes_cases p s.rtSample? (s.decodeJob strict a b) with
    ⟨bits, -, -, -, -, hd⟩ | ⟨e, -, hd⟩ | ⟨i, hi, hn, hd⟩ <;> rw [hd]
  · exact .inl ⟨_, rfl⟩
  · exact .inl ⟨_, rfl⟩
  · exact .inr ⟨i, hi, hn, rfl⟩

/-- A decode command whose algorithm gives bytes. -/
theorem decodeCommand_ok {p : Config.Params} {strict : Bool} {a : Byte} {b : Half} {s : State}
    {l : List Byte} (h : decodeBytes p s.rtSample? (s.decodeJob strict a b) = .ok l) :
    decodeCommand p strict a b s = .next { s with
      decBits := some a, decBytes := Vector.ofFn fun k => l[k.val]?, status := some 0 } := by
  rw [decodeCommand, h]
  rfl

/-- A decode command whose algorithm fails. -/
theorem decodeCommand_failed {p : Config.Params} {strict : Bool} {a : Byte} {b : Half} {s : State}
    {e : Completion} (h : decodeBytes p s.rtSample? (s.decodeJob strict a b) = .error (.failed e)) :
    decodeCommand p strict a b s = .next { s with status := some e.code } := by
  rw [decodeCommand, h]
  rfl

/-- A decode command whose algorithm comes to an unwritten sample. -/
theorem decodeCommand_unwritten {p : Config.Params} {strict : Bool} {a : Byte} {b : Half} {s : State}
    {i : Nat} (h : decodeBytes p s.rtSample? (s.decodeJob strict a b) = .error (.unwritten i)) :
    decodeCommand p strict a b s = unwritten (.rtSample i) := by
  rw [decodeCommand, h]

end Sys2Proof.Machine
end

