-- ==== Sys2Proof/Laws/PerInstr.lean ====
section
/-! SUPPORT. Statements for all commands, made per command. `Encoding`: a command's word is a legal
word (spec/30_encoding.md R82, R84, R86). -/

namespace Sys2Proof.Laws.Encoding

/-- The word of a command is legal: its opcode stands in the map and its must-be-zero fields are zero. -/
def Statement (i : Instr) : Prop := CommandWord.wellFormed (encode i) = true

theorem of_fields {i : Instr} {op a : Byte} {b : Half} (h : encode i = pack op a b)
    (hw : Fields.wellFormed ⟨op, a, b⟩ = true) : Statement i := by
  rw [Statement, CommandWord.wellFormed, h, fields_pack, hw]

theorem nop : Statement .nop := of_fields rfl rfl
theorem reset : Statement .reset := of_fields rfl rfl
theorem setRaw : Statement .setRaw := of_fields rfl rfl
theorem getRaw : Statement .getRaw := of_fields rfl rfl
theorem chkCalc : Statement .chkCalc := of_fields rfl rfl
theorem chkValid : Statement .chkValid := of_fields rfl rfl
theorem chkCalcIn : Statement .chkCalcIn := of_fields rfl rfl
theorem chkValidIn : Statement .chkValidIn := of_fields rfl rfl
theorem setTemp (a : Byte) : Statement (.setTemp a) := of_fields rfl rfl
theorem getTemp : Statement .getTemp := of_fields rfl rfl
theorem setMode (a : Byte) : Statement (.setMode a) := of_fields rfl rfl
theorem getMode : Statement .getMode := of_fields rfl rfl
theorem setFan (a : Byte) : Statement (.setFan a) := of_fields rfl rfl
theorem getFan : Statement .getFan := of_fields rfl rfl
theorem setPower (a : Byte) : Statement (.setPower a) := of_fields rfl rfl
theorem getPower : Statement .getPower := of_fields rfl rfl
theorem setWifi (a : Byte) : Statement (.setWifi a) := of_fields rfl rfl
theorem getWifi : Statement .getWifi := of_fields rfl rfl
theorem setTurbo (a : Byte) : Statement (.setTurbo a) := of_fields rfl rfl
theorem getTurbo : Statement .getTurbo := of_fields rfl rfl
theorem setEcono (a : Byte) : Statement (.setEcono a) := of_fields rfl rfl
theorem getEcono : Statement .getEcono := of_fields rfl rfl
theorem setLight (a : Byte) : Statement (.setLight a) := of_fields rfl rfl
theorem getLight : Statement .getLight := of_fields rfl rfl
theorem setSwingH (a : Byte) : Statement (.setSwingH a) := of_fields rfl rfl
theorem getSwingH : Statement .getSwingH := of_fields rfl rfl
theorem setOffTimer (b : Half) : Statement (.setOffTimer b) := of_fields rfl rfl
theorem send (b : Half) : Statement (.send b) := of_fields rfl rfl
theorem decode (a : Byte) (b : Half) : Statement (.decode a b) := of_fields rfl rfl
theorem decodeStrict (a : Byte) (b : Half) : Statement (.decodeStrict a b) := of_fields rfl rfl

end Sys2Proof.Laws.Encoding
end

