-- ==== Sys2Proof/Tests/Slice0.lean ====
section
/-! SUPPORT. The model's own tests. Expected results come from the spec: the worked encodings of
spec/30_encoding.md, the examples of the command rules, and the vectors of spec/95_test_vectors.md
(their ids stand in the names or comments). After the tests: one witness for the hypotheses of each
obligation that has any. -/

namespace Sys2Proof.Tests

open Sys2Proof Sys2Proof.Machine Sys2Proof.Claim

/-! ### Small states -/

/-- EX, the example state of spec/95_test_vectors.md. -/
def ex : List Byte := [0x33, 0x28, 0x88, 0x1A, 0x3B, 0x3B, 0x3B, 0x11, 0x00, 0x40]

/-- Cells 0, 1, … with these values. -/
def cellsFrom {α : Type} : Nat → List α → Cells α
  | _, [] => []
  | i, v :: l => (i, v) :: cellsFrom (i + 1) l

/-- After reset, with STATE holding these bytes. -/
def holding (l : List Byte) : State :=
  { State.reset with mem := Memory.ofFn fun i => l.getD i.val 0 }

/-- With IN holding these bytes and IN_LEN their number. -/
def given (l : List Byte) (s : State) : State :=
  { s with inPort := cellsFrom 0 l, inLen := BitVec.ofNat 8 l.length }

/-- With RT holding these durations and RT_LEN their number. -/
def captured (l : List Nat) (s : State) : State :=
  { s with rtPort := cellsFrom 0 (l.map (BitVec.ofNat 32)), rtLen := BitVec.ofNat 16 l.length }

/-- After reset, with one byte of STATE set. -/
def byteAt (a : Fin 10) (v : Byte) : State := { State.reset with mem := Memory.write [] a v }

/-- The last sample of one frame, which every RT holds (R16). -/
def lastOfFrame : Fin Config.chosen.rtCap := ⟨161, Config.chosen.rtCap_floor⟩

/-- The block without a footer mark (R9). -/
def noFooter : Config.Params := { footerMarkUs := 0 }

/-- A part of the next state, if there is one. -/
def after {α : Type} (r : Machine.Result) (f : State → α) : Option α :=
  match r with
  | .next t => some (f t)
  | .fault _ => none
  | .refused _ => none

/-- The location a ReadUnwritten names. -/
def stopsAt (r : Machine.Result) : Option Location :=
  match r with
  | .next _ => none
  | .fault (.readUnwritten loc) => some loc
  | .refused _ => none

/-! ### Well-formed words -/

/-- Vectors E4 to E7: OP stands in no row of R84. -/
theorem test_wellFormed_refuses_undefined_opcode :
    CommandWord.wellFormed 0x00000008 = false ∧ CommandWord.wellFormed 0x00000023 = false ∧
      CommandWord.wellFormed 0x00000033 = false ∧ CommandWord.wellFormed 0x000000FF = false := by decide

/-- Vector E2: format Z with A = 1. -/
theorem test_wellFormed_refuses_a_in_format_z :
    CommandWord.wellFormed 0x00000100 = false := by decide

/-- Vector E3: format Z with B = 1. -/
theorem test_wellFormed_refuses_b_in_format_z :
    CommandWord.wellFormed 0x00010003 = false := by decide

/-- Vector E8: format A with B = 1. -/
theorem test_wellFormed_refuses_b_in_format_a :
    CommandWord.wellFormed 0x00011A10 = false := by decide

/-- Vectors E9 and E10: format B with A = 1. -/
theorem test_wellFormed_refuses_a_in_format_b :
    CommandWord.wellFormed 0x005A0122 = false ∧ CommandWord.wellFormed 0x00020130 = false := by decide

/-- Vectors E1, E12, R91 and E11: one legal word of each format. -/
theorem test_wellFormed_takes_legal_words :
    CommandWord.wellFormed 0x00000000 = true ∧ CommandWord.wellFormed 0x00001A10 = true ∧
      CommandWord.wellFormed 0x005A0022 = true ∧ CommandWord.wellFormed 0xFFFFFF31 = true := by decide

/-! ### Decoding, words written out from R82 and R84 -/

theorem test_decode_buffer_words :
    decode 0b00000000000000000000000000000000 = .ok .nop ∧
    decode 0b00000000000000000000000000000001 = .ok .reset ∧
    decode 0b00000000000000000000000000000010 = .ok .setRaw ∧
    decode 0b00000000000000000000000000000011 = .ok .getRaw ∧
    decode 0b00000000000000000000000000000100 = .ok .chkCalc ∧
    decode 0b00000000000000000000000000000101 = .ok .chkValid ∧
    decode 0b00000000000000000000000000000110 = .ok .chkCalcIn ∧
    decode 0b00000000000000000000000000000111 = .ok .chkValidIn := by decide

theorem test_decode_getter_words :
    decode 0b00000000000000000000000000010001 = .ok .getTemp ∧
    decode 0b00000000000000000000000000010011 = .ok .getMode ∧
    decode 0b00000000000000000000000000010101 = .ok .getFan ∧
    decode 0b00000000000000000000000000010111 = .ok .getPower ∧
    decode 0b00000000000000000000000000011001 = .ok .getWifi ∧
    decode 0b00000000000000000000000000011011 = .ok .getTurbo ∧
    decode 0b00000000000000000000000000011101 = .ok .getEcono ∧
    decode 0b00000000000000000000000000011111 = .ok .getLight ∧
    decode 0b00000000000000000000000000100001 = .ok .getSwingH := by decide

theorem test_decode_setter_words :
    decode 0b00000000000000000001101000010000 = .ok (.setTemp 0x1A) ∧
    decode 0b00000000000000000110001100010010 = .ok (.setMode 0x63) ∧
    decode 0b00000000000000000000010000010100 = .ok (.setFan 0x04) ∧
    decode 0b00000000000000000000000100010110 = .ok (.setPower 0x01) ∧
    decode 0b00000000000000001111111100011000 = .ok (.setWifi 0xFF) ∧
    decode 0b00000000000000001000000000011010 = .ok (.setTurbo 0x80) ∧
    decode 0b00000000000000000000001000011100 = .ok (.setEcono 0x02) ∧
    decode 0b00000000000000000000010100011110 = .ok (.setLight 0x05) ∧
    decode 0b00000000000000000111111000100000 = .ok (.setSwingH 0x7E) := by decide

theorem test_decode_operand_b_words :
    decode 0b00000000010110100000000000100010 = .ok (.setOffTimer 90) ∧
    decode 0b00000000000000100000000000110000 = .ok (.send 2) ∧
    decode 0b00000000000000010101000000110001 = .ok (.decode 80 1) ∧
    decode 0b00000000101000100101000000110010 = .ok (.decodeStrict 80 162) := by decide

/-- Vectors E4, E2, E8, E9. -/
theorem test_decode_rejects_by_name :
    decode 0x00000008 = .error (.undefinedOpcode 0x08) ∧
    decode 0x00000100 = .error (.mustBeZero 0x00) ∧
    decode 0x00011A10 = .error (.mustBeZero 0x10) ∧
    decode 0x005A0122 = .error (.mustBeZero 0x22) := by decide

/-- Vector E11: a legal word, whatever its operands (R87). -/
theorem test_decode_takes_every_operand :
    decode 0xFFFFFF31 = .ok (.decode 255 65535) := by decide

theorem test_table_word :
    decodeTableWord 32 0x005A0022 = some (.setOffTimer 90) ∧ decodeTableWord 32 0x00010003 = none := by decide

/-- R84: no two rows share an opcode. -/
theorem test_opcode_rows_are_distinct :
    opcodeRows.Pairwise fun r q => r.op ≠ q.op := by decide

/-! ### The step -/

/-- Vector F1, run as the first command after reset. -/
theorem test_step_after_withFetchWord :
    after (step (State.reset.withFetchWord 32 0x00001A10)) (fun t => (t.mem, t.status, t.host)) =
      some ([(3, 0x0A)], some 0, []) := by decide

/-- Log entry 2. -/
theorem test_step_waits_with_no_action :
    after (step State.reset) id = some State.reset := by decide

/-- Vector E3: STATE[9] and OUT_BYTES unchanged. -/
theorem test_step_illegal_word :
    after (step ((holding ex).withFetchWord 32 0x00010003)) (fun t => (t.mem.bytes, t.status, t.outBytes[9])) =
      some (ex, some 6, none) := by decide

/-- Vector RS1. -/
theorem test_power_on_reset :
    after (step { given ex (holding ex) with status := some 0, result := some 0x40, host := [.powerOn] })
      (fun t => t) = some State.reset := by decide

/-- Vector RS2. -/
theorem test_host_reads_status_too_early :
    stopsAt (step (State.reset.withHost [.read .status])) = some (.register .status) := by decide

theorem test_host_reads_status_after_a_command :
    after (step { State.reset with status := some 0, host := [.read .status] }) (fun t => t.status) =
      some (some 0) := by decide

theorem test_host_writes_in :
    after (step (State.reset.withHost [.writeIn ⟨254, by decide⟩ 0x5A])) (fun t => (t.inByte? 254, t.inByte? 0)) =
      some (some 0x5A, none) := by decide

theorem test_host_writes_rt :
    after (step (State.reset.withHost [.writeRt lastOfFrame 1026])) (fun t => (t.rtSample? 161, t.rtSample? 0)) =
      some (some 1026, none) := by decide

theorem test_host_writes_in_len :
    after (step (State.reset.withHost [.writeInLen 10])) (fun t => t.inLen) = some 10 := by decide

/-- R44: RT_LEN up to RT_CAP, at its default; above it a host duty is broken (R265, log entry 6). -/
theorem test_host_writes_rt_len :
    after (writeRtLen Config.reference 1024 State.reset) (fun t => t.rtLen) = some 1024 ∧
    stopsAt (writeRtLen Config.reference 1025 State.reset) = some (.rtSample 1024) := by decide

/-- R16: at the floor of RT_CAP. -/
theorem test_host_writes_rt_len_at_the_floor :
    after (writeRtLen { rtCap := 162 } 162 State.reset) (fun t => t.rtLen) = some 162 ∧
    stopsAt (writeRtLen { rtCap := 162 } 163 State.reset) = some (.rtSample 162) := by decide

/-! ### State-buffer commands -/

theorem test_nop_b11 :
    after (exec .nop (holding ex)) (fun t => (t.mem.bytes, t.status, t.result)) = some (ex, some 0, none) := by decide

theorem test_reset_b1 :
    after (exec .reset (holding ex)) (fun t => (t.mem, t.status)) = some ([], some 0) := by decide

theorem test_reset_keeps_result_rs4 :
    after (exec .reset { holding ex with result := some 0x40 }) (fun t => (t.mem, t.result)) =
      some ([], some 0x40) := by decide

theorem test_setRaw_b2 :
    after (exec .setRaw (given ex State.reset)) (fun t => (t.mem.bytes, t.status)) = some (ex, some 0) := by decide

/-- The length is checked before IN is read (R233, R234); then IN[1] was never written (R102). -/
theorem test_setRaw_b3_b5 :
    after (exec .setRaw { State.reset with inLen := 9 }) (fun t => (t.mem, t.status)) = some ([], some 1) ∧
    after (exec .setRaw State.reset) (fun t => (t.mem, t.status)) = some ([], some 1) ∧
    stopsAt (exec .setRaw { given ex State.reset with inPort := [(0, 1)] }) = some (.inByte 1) := by decide

theorem test_getRaw_b7 :
    after (exec .getRaw State.reset) (fun t => (t.mem, t.outBytes.toList, t.status)) = some
      ([(9, 0xFF)], [some 0, some 0, some 0, some 0, some 0, some 0, some 0, some 0, some 0, some 0xFF],
        some 0) := by decide

theorem test_getRaw_b8 :
    after (exec .getRaw (holding [0x00, 0xE8, 0x80, 0x08])) (fun t => (t.mem.bytes, t.outBytes[1], t.outBytes[9])) =
      some ([0x00, 0xE8, 0x80, 0x08, 0, 0, 0, 0, 0, 0x8F], some 0xE8, some 0x8F) := by decide

/-! ### Checksum -/

theorem test_chkCalc_k1_k4 :
    after (exec .chkCalc (holding ex)) (fun t => t.result) = some (some 0x0040) ∧
    after (exec .chkCalc (holding (List.replicate 9 0xFF))) (fun t => t.result) = some (some 0x0008) := by decide

theorem test_chkCalc_k2_ignores_byte_nine :
    after (exec .chkCalc (holding (ex.take 9 ++ [0xFF]))) (fun t => (t.result, t.mem.read 9)) =
      some (some 0x0040, 0xFF) := by decide

theorem test_chkValid_w6_k3 :
    after (exec .chkValid (holding ex)) (fun t => (t.result, t.status)) = some (some 1, some 0) ∧
    after (exec .chkValid State.reset) (fun t => (t.result, t.status)) = some (some 0, some 0) := by decide

theorem test_chkValid_k5 :
    after (exec .chkValid (holding [0x33, 0x28, 0x08, 0x1A, 0x3B, 0x3B, 0x3B, 0x11, 0x00, 0x40]))
      (fun t => t.result) = some (some 0) := by decide

theorem test_chkCalcIn_k6_k11_k12 :
    after (exec .chkCalcIn State.reset) (fun t => t.result) = some (some 0) ∧
    after (exec .chkCalcIn (given [0x80, 0x80, 0x80, 0x00] State.reset)) (fun t => t.result) = some (some 0x007F) ∧
    after (exec .chkCalcIn { given ex State.reset with inLen := 9 }) (fun t => t.result) = some (some 0x0040) := by decide

theorem test_chkCalcIn_k7_does_not_read_the_last_byte :
    after (exec .chkCalcIn { State.reset with inLen := 1 }) (fun t => t.result) = some (some 0x00FF) ∧
    stopsAt (exec .chkCalcIn { State.reset with inLen := 2 }) = some (.inByte 0) := by decide

theorem test_chkValidIn_k6_k8_k10 :
    after (exec .chkValidIn State.reset) (fun t => t.result) = some (some 1) ∧
    after (exec .chkValidIn (given [0xFF] State.reset)) (fun t => t.result) = some (some 1) ∧
    after (exec .chkValidIn (given [0x01, 0xFF] State.reset)) (fun t => t.result) = some (some 0) := by decide

theorem test_chkValidIn_k9_k12 :
    after (exec .chkValidIn (given [0x01, 0xFE] State.reset)) (fun t => t.result) = some (some 1) ∧
    after (exec .chkValidIn { given ex State.reset with inLen := 9 }) (fun t => t.result) = some (some 0) := by decide

/-! ### Field access -/

theorem test_setTemp_f1_f5 :
    after (exec (.setTemp 26) State.reset) (fun t => t.mem) = some [(3, 0x0A)] ∧
    after (exec (.setTemp 20) (byteAt 3 0xFF)) (fun t => t.mem) = some [(3, 0xF4)] := by decide

theorem test_setTemp_f2_f3_f4 :
    (after (exec (.setTemp 16) State.reset) (fun t => t.mem) = some [] ∧
      after (exec (.setTemp 15) State.reset) (fun t => t.mem) = some []) ∧
    after (exec (.setTemp 30) State.reset) (fun t => t.mem) = some [(3, 0x0E)] ∧
    after (exec (.setTemp 31) State.reset) (fun t => t.mem) = some [(3, 0x0E)] ∧
    after (exec (.setTemp 255) State.reset) (fun t => t.mem) = some [(3, 0x0E)] := by decide

theorem test_getTemp_f1_f6 :
    after (exec .getTemp (byteAt 3 0x0A)) (fun t => t.result) = some (some 26) ∧
    after (exec .getTemp (byteAt 3 0x0F)) (fun t => t.result) = some (some 31) := by decide

/-- On the reference codes (I2). -/
theorem test_setMode_f7_f8_f9 :
    Memory.setField [] .mode (modeCode Config.reference 99) = [(1, 0x08)] ∧
    Memory.setField [(1, 0xE0)] .mode (modeCode Config.reference 2) = [(1, 0xE2)] ∧
    Memory.setField [] .mode (modeCode Config.reference 17) = [(1, 0x08)] := by decide

theorem test_setMode_is_a_step :
    after (exec (.setMode 99) State.reset) (fun t => t.mem) =
      some (Memory.setField [] .mode (modeCode Config.chosen 99)) := rfl

theorem test_getMode_f13 :
    after (exec .getMode (holding ex)) (fun t => t.result) = some (some 8) := by decide

/-- On the reference codes (I2). -/
theorem test_setFan_f10_f11_f12 :
    Memory.setField [] .fanSpeed (fanCode Config.reference 99) = [(1, 0xE0)] ∧
    Memory.setField [(1, 0x08)] .fanSpeed (fanCode Config.reference 4) = [(1, 0x88)] ∧
    Memory.setField [(1, 0x10)] .fanSpeed (fanCode Config.reference 1) = [(1, 0x30)] := by decide

theorem test_setFan_is_a_step :
    after (exec (.setFan 99) State.reset) (fun t => t.mem) =
      some (Memory.setField [] .fanSpeed (fanCode Config.chosen 99)) := rfl

theorem test_getFan_f13 :
    after (exec .getFan (holding ex)) (fun t => t.result) = some (some 1) := by decide

theorem test_setPower_f15_f16 :
    after (exec (.setPower 1) State.reset) (fun t => t.mem) = some [(2, 0x80)] ∧
    after (exec (.setPower 0) (byteAt 2 0x88)) (fun t => t.mem) = some [(2, 0x08)] := by decide

theorem test_getPower_r149 :
    after (exec .getPower (byteAt 2 0x88)) (fun t => t.result) = some (some 1) := by decide

theorem test_setWifi_f17 :
    after (exec (.setWifi 255) State.reset) (fun t => t.mem) = some [(2, 0x08)] := by decide

theorem test_getWifi_r151 :
    after (exec .getWifi (byteAt 2 0x88)) (fun t => t.result) = some (some 1) := by decide

theorem test_setTurbo_f18 :
    after (exec (.setTurbo 1) (byteAt 2 0x88)) (fun t => t.mem) = some [(2, 0xA8)] := by decide

theorem test_getTurbo_r153 :
    after (exec .getTurbo (byteAt 2 0x88)) (fun t => t.result) = some (some 0) := by decide

theorem test_setEcono_f19 :
    after (exec (.setEcono 2) (byteAt 3 0x1A)) (fun t => t.mem) = some [(3, 0x5A)] := by decide

theorem test_getEcono_r155 :
    after (exec .getEcono (byteAt 3 0x1A)) (fun t => t.result) = some (some 0) := by decide

theorem test_setLight_f20 :
    after (exec (.setLight 1) (holding ex)) (fun t => (t.mem.read 8, t.mem.read 9)) = some (0x20, 0x40) := by decide

theorem test_getLight_f20 :
    after (exec .getLight (byteAt 8 0x20)) (fun t => t.result) = some (some 1) := by decide

theorem test_setSwingH_f21_f22 :
    after (exec (.setSwingH 0) (byteAt 0 0x33)) (fun t => t.mem) = some [(0, 0x32)] ∧
    after (exec (.setSwingH 1) (byteAt 0 0xFE)) (fun t => t.mem) = some [(0, 0xFF)] := by decide

theorem test_getSwingH_r159 :
    after (exec .getSwingH (byteAt 0 0x33)) (fun t => t.result) = some (some 1) := by decide

/-- On the reference layout (I6). -/
theorem test_setOffTimer_f24_f25 :
    offTimerMem Config.reference 90 [] = [(5, 0x1E), (7, 0x20), (8, 0x40)] ∧
    offTimerMem Config.reference 65535 [] = [(5, 0x3B), (8, 0x40)] := by decide

/-- On the reference layout (I6): Light, byte 4 and byte 5 bit 6 are kept. -/
theorem test_setOffTimer_f23 :
    (offTimerMem Config.reference 0 [(4, 0x11), (5, 0x40), (8, 0x60)]) = [(4, 0x11), (5, 0x40), (7, 0x10), (8, 0x20)] := by decide

/-! ### Encoder -/

theorem test_send_x1 :
    after (exec (.send 0) State.reset) (fun t => (t.mem, t.txLog.length, t.status)) =
      some ([(9, 0xFF)], 1, some 0) := by decide

theorem test_send_is_one_record_of_the_frames :
    after (exec (.send 2) (holding ex)) (fun t => t.txLog) =
      some [sendRecord Config.chosen 2 (holding ex).mem.recompute.bytes] := rfl

/-- Byte 0x33, most significant bit first, then the end of the frame. -/
theorem test_frame_x2 :
    ((frame Config.reference ex).take 16).map Pulse.durationUs =
      [1026, 554, 1026, 554, 1026, 2553, 1026, 2553, 1026, 554, 1026, 554, 1026, 2553, 1026, 2553] ∧
    (frame Config.reference ex).drop 160 = [⟨.mark, 1026⟩, ⟨.space, 100000⟩] := by decide +kernel

theorem test_send_x6_without_footer :
    after (sendCommand noFooter 0 (holding ex)) (fun t => t.txLog.map fun r => r.pulses.drop 159) =
      some [[⟨.space, 554⟩, ⟨.space, 100000⟩]] := by decide +kernel

/-- R8, U9: corrected literals change a frame and its carrier, and nothing but the configuration. -/
theorem test_send_with_other_literals :
    after (sendCommand { bitMarkUs := 500, oneSpaceUs := 1500, zeroSpaceUs := 400, carrierHz := 36000 } 0
      (holding ex)) (fun t => t.txLog.map fun r => (r.freqHz, (r.pulses.take 6).map Pulse.durationUs,
        r.pulses.drop 160)) =
      some [(36000, [500, 400, 500, 400, 500, 1500], [⟨.mark, 500⟩, ⟨.space, 100000⟩])] := by decide +kernel

/-- The defaults of R8, R9 and R16. -/
theorem test_default_configuration :
    (Config.reference.bitMarkUs, Config.reference.oneSpaceUs, Config.reference.zeroSpaceUs,
      Config.reference.carrierHz, Config.reference.footerMarkUs, Config.reference.rtCap) =
      (1026, 2553, 554, 38000, 1026, 1024) := by decide

theorem test_frame_x2_duration :
    duration (frame Config.reference ex) = 185397 + 100000 ∧ ones ex = 29 := by decide +kernel

theorem test_record_x3 :
    (sendRecord Config.reference 2 ex).pulses.length = 486 ∧
    (sendRecord Config.reference 2 ex).pulses[162]? = some ⟨.mark, 1026⟩ := by decide +kernel

/-! ### Decoder, on the reference predicates and gap (I3, I4) -/

/-- FR(S), the durations of frame(S). -/
def fr (l : List Byte) : List Nat := (frame Config.reference l).map Pulse.durationUs

/-- The commands on the reference parameters. -/
def lenient (a : Byte) (b : Half) (s : State) : Machine.Result :=
  decodeCommand Config.reference false a b s
def strictly (a : Byte) (b : Half) (s : State) : Machine.Result :=
  decodeCommand Config.reference true a b s

/-- RT = FR(EX). -/
def rtEx : State := captured (fr ex) State.reset

/-- FR(EX) with one sample changed. -/
def rtExWith (i d : Nat) : State := captured ((fr ex).set i d) State.reset

/-- What a decode leaves. -/
def outcome (r : Machine.Result) : Option (Option (BitVec 4) × Option Byte × List (Option Byte)) :=
  after r fun t => (t.status, t.decBits, t.decBytes.toList)

/-- No decode output. -/
def nothing : List (Option Byte) := List.replicate 10 none

theorem test_decode_dv12 :
    outcome (lenient 80 0 (rtExWith 1 1915)) = some (some 0, some 80, some 0xB3 :: (ex.map some).tail) := by decide +kernel

theorem test_decode_dv27_a_short_frame :
    outcome (lenient 16 0 (captured ((fr ex).take 32 ++ [1026]) State.reset)) =
      some (some 0, some 16, [some 0x33, some 0x28] ++ List.replicate 8 none) := by decide +kernel

theorem test_decode_dv4_dv7 :
    outcome (lenient 80 0 (captured ((fr ex).take 160) State.reset)) = some (some 3, none, nothing) ∧
    outcome (lenient 12 0 rtEx) = some (some 5, none, nothing) := by decide +kernel

theorem test_decode_dv10_dv14_dv15 :
    outcome (lenient 80 0 (rtExWith 0 1283)) = some (some 2, none, nothing) ∧
    outcome (lenient 80 0 (rtExWith 1 1914)) = some (some 2, none, nothing) ∧
    outcome (lenient 80 0 (rtExWith 3 693)) = some (some 2, none, nothing) := by decide +kernel

/-- The durations of DV16 and DV18, on a frame of one byte. -/
theorem test_decode_footer_and_gap :
    outcome (lenient 8 0 (captured ((fr ex).take 16 ++ [300]) State.reset)) = some (some 2, none, nothing) ∧
    outcome (lenient 8 0 (captured ((fr ex).take 16 ++ [1026, 74999]) State.reset)) =
      some (some 2, none, nothing) ∧
    outcome (lenient 8 0 (captured ((fr ex).take 16 ++ [1026, 75000]) State.reset)) =
      some (some 0, some 8, some 0x33 :: List.replicate 9 none) := by decide +kernel

/-- R203, R205 without a footer mark: the gap follows the last space. -/
theorem test_decode_without_footer :
    outcome (decodeCommand noFooter false 8 0 (captured ((fr ex).take 16 ++ [74999]) State.reset)) =
      some (some 2, none, nothing) ∧
    outcome (decodeCommand noFooter false 8 0 (captured ((fr ex).take 16 ++ [75000]) State.reset)) =
      some (some 0, some 8, some 0x33 :: List.replicate 9 none) := by decide +kernel

theorem test_decodeStrict_dv2 :
    outcome (strictly 80 0 rtEx) = some (some 0, some 80, ex.map some) := by decide +kernel

theorem test_decodeStrict_dv13 :
    outcome (strictly 80 0 (rtExWith 1 1915)) = some (some 4, none, nothing) := by decide +kernel

theorem test_decodeStrict_dv29 :
    outcome (strictly 64 0 (captured ((fr ex).take 10) State.reset)) = some (some 5, none, nothing) := by decide +kernel

/-- R201: a sample the host never wrote. -/
theorem test_decode_of_an_unwritten_sample :
    stopsAt (lenient 8 0 { captured ((fr ex).take 17) State.reset with rtPort := [(0, 1026)] }) =
      some (.rtSample 1) := by decide +kernel

theorem test_decode_commands_run_it :
    (∀ s, exec (.decode 80 0) s = decodeCommand Config.chosen false 80 0 s) ∧
    ∀ s, exec (.decodeStrict 80 0) s = decodeCommand Config.chosen true 80 0 s := ⟨fun _ => rfl, fun _ => rfl⟩

/-! ### Assembler (R88 to R90, R91) -/

theorem test_assemble_worked_encodings :
    (assemble Config.reference "SET_OFF_TIMER 90".toList).map encode = some 0x005A0022 ∧
    (assemble Config.reference "DECODE 80, 1".toList).map encode = some 0x00015031 := by decide +kernel

/-- Program P1, lines 3 and 4, on the reference codes (I2). -/
theorem test_assemble_symbols :
    (assemble Config.reference "SET_MODE COOL".toList).map encode = some 0x00000812 ∧
    (assemble Config.reference "SET_FAN AUTO".toList).map encode = some 0x00000714 := by decide +kernel

/-- R88, R90; a number that is too wide is refused (log entry 11). -/
theorem test_assemble_pseudo_instructions :
    (assemble Config.reference "POWER_OFF".toList).map encode = some 0x00000016 ∧
    (assemble Config.reference "DECODE_STRICT 0x1 ; hexadecimal".toList).map encode = some 0x00015032 ∧
    assemble Config.reference "SET_TEMP 256".toList = none := by decide +kernel

/-! ### Witnesses: the hypotheses of each obligation can be met -/

theorem witness_DecodedWordIsTheEncodingOfItsCommand : decode 0x00001A10 = .ok (.setTemp 26) := by
  decide

theorem witness_WordIsACommandExactlyWhenItMatchesARow :
    (⟨"GET_RAW", 0x03, .z, fun _ _ => .getRaw⟩ : Row) ∈ opcodeRows := by
  simp [opcodeRows, bufferRows]

theorem witness_IllegalWordWritesOnlyIllegalCommand :
    CommandWord.wellFormed 0x00010003 = false := by decide

theorem witness_StepRunsTheDecodedCommand :
    ((State.reset.withHost [.command 0x00001A10]).host = .command 0x00001A10 :: [] ∧
      decode 0x00001A10 = .ok (.setTemp 26)) ∧
    (State.reset.withHost [.command 0x00000008]).host = .command 0x00000008 :: [] ∧
      decode 0x00000008 = .error (.undefinedOpcode 0x08) := by decide

theorem witness_HostWritesReachThePorts :
    (State.reset.withHost [.writeIn ⟨254, by decide⟩ 1]).host = .writeIn ⟨254, by decide⟩ 1 :: [] ∧
    (State.reset.withHost [.writeInLen 255]).host = .writeInLen 255 :: [] ∧
    (State.reset.withHost [.writeRt lastOfFrame 1]).host = .writeRt lastOfFrame 1 :: [] ∧
    (State.reset.withHost [.writeRtLen 162]).host = .writeRtLen 162 :: [] ∧
    (162 : Half).toNat ≤ Config.chosen.rtCap := ⟨rfl, rfl, rfl, rfl, Config.chosen.rtCap_floor⟩

theorem witness_PowerOnResetGivesTheResetTable :
    ({ holding ex with host := [.powerOn, .read .status] }).host = .powerOn :: [.read .status] := rfl

theorem witness_HostReadFaultsExactlyOnNoValue :
    ∀ r : HostReg, (State.reset.withHost [.read r]).host = .read r :: [] := fun _ => rfl

/-- Every kind of action, the commands that have duties among them; duties not kept. -/
theorem witness_HostDutiesRuleOutFaults :
    ActionDutiesMet (.command 0x00000002) (given ex State.reset) ∧
    ActionDutiesMet (.writeRtLen 162) State.reset ∧ ActionDutiesMet .powerOn State.reset ∧
    ActionDutiesMet (.read .status) { State.reset with status := some 0 } ∧
    ActionDutiesMet (.read .txLog) State.reset ∧
    ¬ ActionDutiesMet (.command 0x00000002) { State.reset with inLen := 10 } ∧
    ¬ ActionDutiesMet (.read .status) State.reset := by
  refine ⟨fun i h => ?_, ?_, trivial, ?_, ?_, fun h => ?_, fun h => h rfl⟩
  · have hi : i = .setRaw := by
      have hd : decode 0x00000002 = .ok .setRaw := by decide
      rw [hd] at h
      cases h
      rfl
    subst hi
    exact fun _ => (by decide : ∀ k < 10, ((given ex State.reset).inByte? k).isSome)
  · exact Config.chosen.rtCap_floor
  · exact (by decide : ({ State.reset with status := some 0 } : State).hostRead .status ≠ none)
  · exact (by decide : State.reset.hostRead .txLog ≠ none)
  · exact Bool.noConfusion (h .setRaw (by decide) rfl 0 (by decide))

/-- The state after reset, before a SEND, meets the invariant. -/
theorem before_send_inv : (State.reset.withHost [.command 0x00000030]).Inv where
  mem_wf := Memory.wf_nil
  in_sorted := List.Pairwise.nil
  in_exists := fun _ h => absurd h (List.not_mem_nil)
  rt_sorted := List.Pairwise.nil
  rt_exists := fun _ h => absurd h (List.not_mem_nil)
  rtLen_le := Nat.zero_le Config.chosen.rtCap
  status_defined := fun _ h => by cases h
  result_low := fun _ h => by cases h
  out_snapshot := .inl (by decide : ∀ i : Fin 10, State.reset.outBytes[i] = none)
  dec_whole := .inl ⟨rfl, (by decide : ∀ i : Fin 10, State.reset.decBytes[i] = none)⟩
  tx_valid := fun _ h => absurd h (List.not_mem_nil)

theorem witness_EveryStepKeepsTheInvariant :
    (State.reset.withHost [.command 0x00000030]).Inv ∧
    ∃ t, step (State.reset.withHost [.command 0x00000030]) = .next t ∧ t.txLog.length = 1 :=
  ⟨before_send_inv, _, rfl, rfl⟩

/-- A command that fails, one that does not, and an illegal word. -/
theorem witness_FailureWritesOnlyStatus :
    (∃ t, issue 0x00000008 State.reset = .next t ∧ t.status = some 6) ∧
    (∃ t, exec .setRaw State.reset = .next t ∧ t.status = some 1) ∧
    ∃ t, exec .nop State.reset = .next t ∧ t.status = some 0 := ⟨⟨_, rfl, rfl⟩, ⟨_, rfl, rfl⟩, _, rfl, rfl⟩

/-! #### Captures that the decoder of the block accepts, whatever the configuration is -/

/-- RT holds the frame of these bytes from sample `off` on, in the block's configuration, and RT_LEN ends
just before its gap. Nothing below `off` was written. -/
def framed (off : Nat) (l : List Byte) : State :=
  { State.reset with
    rtPort := cellsFrom off ((frame Config.chosen l).map fun q => BitVec.ofNat 32 q.durationUs)
    rtLen := BitVec.ofNat 16 (off + (16 * l.length + Config.chosen.footerLen)) }

theorem rtLen_framed (off : Nat) (l : List Byte) (h : off + 16 * l.length < 65535) :
    (framed off l).rtLen.toNat = off + (16 * l.length + Config.chosen.footerLen) := by
  have := footerLen_le_one Config.chosen
  show (BitVec.ofNat 16 (off + (16 * l.length + Config.chosen.footerLen))).toNat = _
  rw [BitVec.toNat_ofNat]
  omega

theorem cellLookup_cellsFrom {α : Type} (off k : Nat) (l : List α) :
    cellLookup (off + k) (cellsFrom off l) = l[k]? := by
  induction l generalizing off k with
  | nil => rfl
  | cons v l ih =>
    cases k with
    | zero => simp [cellsFrom, cellLookup_cons]
    | succ k =>
      have h : off ≠ off + (k + 1) := by omega
      rw [cellsFrom, cellLookup_cons, if_neg h, show off + (k + 1) = off + 1 + k by omega, ih]
      rfl

/-- The durations before the gap fit an RT entry. -/
theorem frame_fits (p : Config.Params) (l : List Byte) (k : Nat) (hk : k < 16 * l.length + p.footerLen)
    {q : Pulse} (hq : (frame p l)[k]? = some q) : q.durationUs < 2 ^ 32 := by
  rcases Nat.lt_or_ge k (16 * l.length) with h | h
  · obtain ⟨j, i, rfl, hi⟩ : ∃ j i, k = 2 * j + i ∧ i < 2 := ⟨k / 2, k % 2, by omega, by omega⟩
    rw [getElem?_frame_cell p l j i (by omega) hi] at hq
    generalize l[j / 8].getLsbD (7 - j % 8) = bit at hq
    have : i = 0 ∨ i = 1 := by omega
    rcases this with rfl | rfl <;> cases hq
    · exact p.bitMark_fits
    · cases bit
      · exact p.zeroSpace_fits
      · exact p.oneSpace_fits
  · have hl := footerLen_le_one p
    obtain rfl : k = 16 * l.length + 0 := by omega
    rcases footer_cases p with ⟨hf, -⟩ | ⟨-, hn⟩
    · rw [getElem?_frame_end, frameEnd, if_pos hf] at hq
      cases hq
      exact p.footerMark_fits
    · omega

theorem framed_holds (off : Nat) (l : List Byte) (k : Nat)
    (hk : k < 16 * l.length + Config.chosen.footerLen) :
    (framed off l).rtSample? (off + k) = ((frame Config.chosen l)[k]?).map Pulse.durationUs := by
  simp only [State.rtSample?, framed, cellLookup_cellsFrom, List.getElem?_map, Option.map_map]
  cases hq : (frame Config.chosen l)[k]? with
  | none => rfl
  | some q =>
    have := frame_fits Config.chosen l k hk hq
    simp only [Option.map_some, Function.comp, BitVec.toNat_ofNat, Option.some.injEq]
    omega

theorem framed_written (off : Nat) (l : List Byte) (k : Nat)
    (hk : k < 16 * l.length + Config.chosen.footerLen) :
    ((framed off l).rtSample? (off + k)).isSome := by
  rw [framed_holds off l k hk, List.getElem?_eq_getElem (by rw [length_frame]; omega)]
  rfl

theorem framed_carries (off : Nat) (l : List Byte) (h : off + 16 * l.length < 65535) :
    CarriesBytes Config.chosen (framed off l).rtSample? off l ∧
    EndMatches Config.chosen (framed off l).rtSample? (framed off l).rtLen.toNat off (8 * l.length) := by
  have hl := rtLen_framed off l h
  refine carries_of_frame (by rw [hl, length_frame]; omega) fun k _ hk => framed_holds off l k ?_
  rw [hl] at hk
  omega

theorem framed_passes (strict : Bool) (a : Byte) (b : Half) (l : List Byte)
    (ha : a.toNat = 8 * l.length) (hn : (strict = true → l.length = 10) ∧ 1 ≤ l.length ∧ l.length ≤ 10)
    (h : b.toNat + 16 * l.length < 65535) :
    ((framed b.toNat l).decodeJob strict a b).Passes Config.chosen := by
  have hl := rtLen_framed b.toNat l h
  refine ⟨⟨fun hs => ?_, ?_, ?_, ?_⟩, ?_⟩ <;> simp only [DecodeJob.need, hl, ha] <;>
    try have := hn.1 hs
  all_goals omega

/-- RT holds the frame of one byte. -/
def rtA5 : State := framed 0 [0xA5]

theorem rtLen_a5 : rtA5.rtLen.toNat = 0 + (16 * 1 + Config.chosen.footerLen) :=
  rtLen_framed 0 [0xA5] (by decide)

theorem rtA5_carries : CarriesBytes Config.chosen rtA5.rtSample? 0 [0xA5] ∧
    EndMatches Config.chosen rtA5.rtSample? rtA5.rtLen.toNat 0 8 := framed_carries 0 [0xA5] (by decide)

/-- A decode that ends with OK: of one byte, lenient. -/
theorem decode_a5 : ∃ t, exec (.decode 8 0) rtA5 = .next t ∧ t.decBits = some 8 ∧ t.status = some 0 := by
  have h := decodeBytes_of_carries (j := rtA5.decodeJob false 8 0) (bytes := [0xA5]) rfl
    (framed_passes false 8 0 [0xA5] rfl (by decide) (by decide)) rtA5_carries.1 rtA5_carries.2
  exact ⟨_, decodeCommand_ok (a := 8) (b := 0) h, rfl, rfl⟩

/-! #### Captures with numbers, for the reference configuration -/

/-- The durations of the cells of these bytes and the footer mark, at the document's values (R8, R9). -/
def cellDurations (l : List Byte) : List Nat :=
  (wireBitsOf l).flatMap (fun v => [1026, if v then 2553 else 554]) ++ [1026]

theorem cellsCarry_of {p : Config.Params} {rt : Nat → Option Nat} {off n : Nat}
    (h : ∀ j < n, rt (off + 2 * j) = some p.bitMarkUs ∧
      (rt (off + 2 * j + 1) = some p.oneSpaceUs ∨ rt (off + 2 * j + 1) = some p.zeroSpaceUs)) :
    CellsCarry p rt off n := by
  intro j hj
  obtain ⟨h1, h2 | h2⟩ := h j hj
  · exact ⟨true, _, _, h1, h2, p.mark_self _, p.space_self _, fun h => Bool.noConfusion h⟩
  · exact ⟨false, _, _, h1, h2, p.mark_self _, p.zero_not_one, fun _ => p.space_self _⟩

theorem footerMatches_of {p : Config.Params} {rt : Nat → Option Nat} {off n : Nat}
    (h : rt (off + 2 * n) = some p.footerMarkUs) : FooterMatches p rt off n :=
  fun _ => ⟨_, h, p.mark_self _⟩

/-! #### The witnesses, continued -/

/-- A part of the state that changes, for each part. -/
theorem witness_EachPartHasItsOwnWriters :
    (∃ t, exec .chkCalc State.reset = .next t ∧ t.result ≠ State.reset.result) ∧
    (∃ t, exec .getRaw State.reset = .next t ∧ t.outBytes ≠ State.reset.outBytes) ∧
    (∃ t, exec (.decode 8 0) rtA5 = .next t ∧ t.decBits ≠ rtA5.decBits) ∧
    (∃ t, exec (.send 0) State.reset = .next t ∧ t.txLog ≠ State.reset.txLog) ∧
    ∃ t, exec (.setPower 1) State.reset = .next t ∧ t.mem ≠ State.reset.mem := by
  refine ⟨⟨_, rfl, by decide⟩, ⟨_, rfl, by decide⟩, ?_, ⟨_, rfl, List.cons_ne_nil _ _⟩, ⟨_, rfl, by decide⟩⟩
  obtain ⟨t, h, hb, -⟩ := decode_a5
  exact ⟨t, h, by rw [hb]; decide⟩

theorem witness_OtherCommandsKeepTheChecksumByte :
    ∃ t, exec (.setLight 1) (holding ex) = .next t ∧ Instr.setLight 1 ∉ [.reset, .setRaw, .getRaw] ∧
      ∀ b, Instr.setLight 1 ≠ .send b := ⟨_, rfl, by decide, fun _ h => Instr.noConfusion h⟩

/-- The four clauses. -/
theorem witness_ReservedBitsPassThrough :
    (∃ t, exec (.setPower 1) (holding ex) = .next t ∧ Instr.setPower 1 ≠ .reset ∧
      Instr.setPower 1 ≠ .setRaw) ∧
    (∃ t, exec .reset (holding ex) = .next t) ∧
    (∃ t, exec .setRaw (given ex State.reset) = .next t ∧ t.status = some 0) ∧
    ∃ t, exec .getRaw (holding ex) = .next t :=
  ⟨⟨_, rfl, by decide, by decide⟩, ⟨_, rfl⟩, ⟨_, rfl, rfl⟩, ⟨_, rfl⟩⟩

/-- Two states that differ in IN at IN_LEN and in RT at RT_LEN, just above what a command sees. -/
theorem witness_CommandsSeePortsOnlyBelowTheirLength :
    ∃ s s' : State, s' = { s with inPort := s'.inPort, rtPort := s'.rtPort } ∧
      (∀ k < s.inLen.toNat, s'.inByte? k = s.inByte? k) ∧
      (∀ k < s.rtLen.toNat, s'.rtSample? k = s.rtSample? k) ∧
      s'.inByte? s.inLen.toNat ≠ s.inByte? s.inLen.toNat ∧
      s'.rtSample? s.rtLen.toNat ≠ s.rtSample? s.rtLen.toNat ∧
      ∃ t, exec .chkValidIn s = .next t ∧ t.result = some 1 :=
  ⟨captured [1026] (given [0x01, 0xFE] State.reset),
    { captured [1026] (given [0x01, 0xFE] State.reset) with
      inPort := [(0, 0x01), (1, 0xFE), (2, 0x77)], rtPort := [(0, 1026), (1, 554)] },
    rfl, by decide, by decide, by decide, by decide, _, rfl, rfl⟩

/-- A host that wrote the second frame of a capture and decodes that frame keeps its duties, though it
wrote nothing before it (R200, R265). -/
theorem secondFrame_duties : DutiesMet (.decode 80 162) (framed 162 ex) := by
  intro i hi
  obtain ⟨h1, -, h3⟩ := hi.bounds
  have h1 : 162 ≤ i := h1
  have h3 : i < (framed 162 ex).rtLen.toNat := h3
  rw [rtLen_framed 162 ex (by decide)] at h3
  have := framed_written 162 ex (i - 162) (by omega)
  rwa [Nat.add_sub_cancel' h1] at this

/-- Duties of each kind, at the shortest and the longest IN_LEN, of decodes of a first frame, of a second
frame, and of one that reads nothing; and each way to stop. -/
theorem witness_CommandsEndUnderHostDuties :
    DutiesMet .setRaw (given ex State.reset) ∧ DutiesMet .setRaw { State.reset with inLen := 255 } ∧
    DutiesMet .chkValidIn State.reset ∧ DutiesMet .chkCalcIn { State.reset with inLen := 1 } ∧
    DutiesMet (.decode 80 162) (framed 162 ex) ∧
    DutiesMet (.decode 12 0) { State.reset with rtLen := 1 } ∧ DutiesMet .nop State.reset ∧
    ¬ DutiesMet .chkValidIn { State.reset with inLen := 1 } ∧
    exec .chkValidIn { State.reset with inLen := 1 } = unwritten (.inByte 0) ∧
    exec (.decode 8 0) { State.reset with rtLen := 17 } = unwritten (.rtSample 0) := by
  refine ⟨?_, fun h => ?_, ?_, ?_, secondFrame_duties, ?_, trivial, fun h => ?_, rfl, ?_⟩
  · exact fun _ => (by decide : ∀ k < 10, ((given ex State.reset).inByte? k).isSome)
  · exact absurd h (by decide)
  · exact (by decide : ∀ k < State.reset.inLen.toNat, (State.reset.inByte? k).isSome)
  · exact fun k hk => absurd hk (Nat.not_lt_zero k)
  · intro i hi
    obtain ⟨-, -, h3⟩ := hi.bounds
    have hp : ∀ {i}, DecodeJob.Reads Config.chosen State.reset.rtSample? ⟨false, 12, 0, 1⟩ i →
        (12 : Nat) % 8 = 0 := by
      intro i h
      cases h with
      | mark hp | space hp | footer hp | gap hp => exact hp.1.2.2.2
    exact absurd (hp hi) (by decide)
  · exact Bool.noConfusion (h 0 (by decide))
  · have := footerLen_le_one Config.chosen
    have hp : (⟨false, 8, 0, 17⟩ : DecodeJob).Passes Config.chosen :=
      ⟨by decide, by simp only [DecodeJob.need]; omega⟩
    exact decodeCommand_unwritten (decodeBytes_of_cells hp rfl)

/-- The clauses of SET_RAW: a length just short of 10 and just over it; all ten bytes written; the
last one not. -/
theorem witness_SetRawCopiesExactlyTenBytes :
    ({ State.reset with inLen := 9 } : State).inLen ≠ 10 ∧
    ({ State.reset with inLen := 11 } : State).inLen ≠ 10 ∧
    ((given ex State.reset).inLen = 10 ∧
      ∀ i : Fin 10, (given ex State.reset).inByte? i.val = some (ex.getD i.val 0)) ∧
    ({ given (ex.take 9) State.reset with inLen := 10 } : State).inLen = 10 ∧ 9 < 10 ∧
      ({ given (ex.take 9) State.reset with inLen := 10 } : State).inByte? 9 = none := by decide

theorem witness_ResetCommandZeroesOnlyTheStateBuffer : ∃ t, exec .reset (holding ex) = .next t := ⟨_, rfl⟩

theorem witness_GetRawRecomputesThenSnapshots : ∃ t, exec .getRaw (holding ex) = .next t := ⟨_, rfl⟩

theorem witness_RecomputingTwiceIsRecomputingOnce :
    (∃ t, exec .getRaw State.reset = .next t) ∧ ∃ t, exec (.send 1) State.reset = .next t :=
  ⟨⟨_, rfl⟩, _, rfl⟩

/-- CHK_CALC_IN with IN_LEN 0, 1 and 4, and with its last payload byte not written. -/
theorem witness_ChkCalcInChecksTheInputPayload :
    (([] : List Byte).length = State.reset.inLen.toNat - 1) ∧
    (([] : List Byte).length = ({ State.reset with inLen := 1 } : State).inLen.toNat - 1) ∧
    (([0x80, 0x80, 0x80] : List Byte).length = (given [0x80, 0x80, 0x80, 0] State.reset).inLen.toNat - 1 ∧
      ∀ i < 3, (given [0x80, 0x80, 0x80, 0] State.reset).inByte? i = ([0x80, 0x80, 0x80] : List Byte)[i]?) ∧
    1 + 1 < (given [1, 2, 3] State.reset).inLen.toNat ∧
      ({ given [1, 2, 3] State.reset with inPort := [(0, 1)] } : State).inByte? 1 = none := by decide

/-- CHK_VALID_IN with IN_LEN 0, 1 and 2, and with its last byte not written. -/
theorem witness_ChkValidInComparesTheLastInputByte :
    State.reset.inLen = 0 ∧
    ((given [0xFF] State.reset).inLen.toNat = ([] : List Byte).length + 1 ∧
      (given [0xFF] State.reset).inByte? ([] : List Byte).length = some 0xFF) ∧
    ((given [1, 2] State.reset).inLen.toNat = ([1] : List Byte).length + 1 ∧
      (∀ i < ([1] : List Byte).length, (given [1, 2] State.reset).inByte? i = ([1] : List Byte)[i]?) ∧
      (given [1, 2] State.reset).inByte? ([1] : List Byte).length = some 2) ∧
    1 < (given [1, 2] State.reset).inLen.toNat ∧
      ({ given [1, 2] State.reset with inPort := [(0, 1)] } : State).inByte? 1 = none := by decide

theorem witness_ChkValidComparesByteNine :
    (∃ t, exec .getRaw (byteAt 0 1) = .next t) ∧ ∃ t, exec (.send 0) (byteAt 0 1) = .next t :=
  ⟨⟨_, rfl⟩, _, rfl⟩

theorem witness_GetTempReturnsStoredPlusSixteen :
    ∃ t, exec (.setTemp 31) State.reset = .next t := ⟨_, rfl⟩

theorem witness_SetOffTimerWritesTheMaskedBitsAndTheEnable :
    (7 : Fin 10).val = 4 + (3 : Fin 4).val ∧ ((3 : Fin 10).val < 4 ∨ (3 : Fin 10) = 9) := by decide

theorem witness_FrameIsEightyCellsFooterAndGap :
    ex.length = 10 ∧ Config.reference.footerMarkUs > 0 ∧ noFooter.footerMarkUs = 0 ∧ 79 < 80 := by decide

theorem witness_FrameDurationCountsTheOneBits :
    ex.length = 10 ∧ Config.reference.bitMarkUs = 1026 ∧ Config.reference.oneSpaceUs = 2553 ∧
    Config.reference.zeroSpaceUs = 554 ∧ Config.reference.footerMarkUs = 1026 := by decide

theorem witness_SendAsksThePrimitiveForItsRecord : ∃ t, exec (.send 2) (holding ex) = .next t := ⟨_, rfl⟩

/-- Bit counts 0, 12 and 81; a strict count of 72; RT one sample too short for 8 bits with a footer and
for 80 bits without one, and just long enough. -/
theorem witness_DecodeChecksBitCountThenLength :
    ((0 : Byte).toNat = 0 ∧ (12 : Byte).toNat % 8 ≠ 0 ∧ 80 < (81 : Byte).toNat) ∧ (72 : Byte).toNat ≠ 80 ∧
    (8 ≤ (8 : Byte).toNat ∧ (8 : Byte).toNat ≤ 80 ∧ (8 : Byte).toNat % 8 = 0 ∧
      ({ State.reset with rtLen := 16 } : State).rtLen.toNat <
        (0 : Half).toNat + (2 * (8 : Byte).toNat + (if Config.reference.footerMarkUs > 0 then 1 else 0))) ∧
    ((80 : Byte).toNat ≤ 80 ∧
      ({ State.reset with rtLen := 159 } : State).rtLen.toNat <
        (0 : Half).toNat + (2 * (80 : Byte).toNat + (if noFooter.footerMarkUs > 0 then 1 else 0))) ∧
    (0 : Half).toNat + (2 * (80 : Byte).toNat + (if noFooter.footerMarkUs > 0 then 1 else 0)) ≤
      ({ State.reset with rtLen := 160 } : State).rtLen.toNat := by decide

theorem canDecode_a5 : CanDecode Config.chosen rtA5 8 0 :=
  ⟨by decide, by decide, by decide, Nat.le_of_eq rtLen_a5.symm⟩

theorem canDecode_ex : CanDecode Config.chosen (framed 0 ex) 80 0 :=
  ⟨by decide, by decide, by decide, Nat.le_of_eq (rtLen_framed 0 ex (by decide)).symm⟩

/-- One byte, lenient; ten bytes with the right checksum. -/
theorem witness_DecodeCommitsTheBytesTheCellsCarry :
    ((8 : Byte).toNat = 8 * ([0xA5] : List Byte).length ∧ CanDecode Config.chosen rtA5 8 0 ∧
      CarriesBytes Config.chosen rtA5.rtSample? (0 : Half).toNat [0xA5] ∧
      EndMatches Config.chosen rtA5.rtSample? rtA5.rtLen.toNat (0 : Half).toNat (8 : Byte).toNat) ∧
    (80 : Byte).toNat = 8 * ex.length ∧ CanDecode Config.chosen (framed 0 ex) 80 0 ∧
      CarriesBytes Config.chosen (framed 0 ex).rtSample? (0 : Half).toNat ex ∧
      EndMatches Config.chosen (framed 0 ex).rtSample? (framed 0 ex).rtLen.toNat (0 : Half).toNat
        (80 : Byte).toNat ∧ validChecksum ex = true :=
  ⟨⟨rfl, canDecode_a5, rtA5_carries⟩, rfl, canDecode_ex, (framed_carries 0 ex (by decide)).1,
    (framed_carries 0 ex (by decide)).2, by decide⟩

/-- On the reference predicates: the mark of cell 0 fails; the space of cell 7, the last, fails; the
footer mark fails; the gap fails, after a footer mark and without one. -/
theorem witness_DecodeMismatchEndsTheDecode :
    (∃ s : State, CanDecode Config.reference s 8 0 ∧ ∃ m sp, s.rtSample? 0 = some m ∧
      s.rtSample? 1 = some sp ∧ Config.reference.matchMark m 1026 = false) ∧
    (∃ s : State, CanDecode Config.reference s 8 0 ∧ CellsCarry Config.reference s.rtSample? 0 7 ∧
      ∃ m sp, s.rtSample? (0 + 2 * 7) = some m ∧ s.rtSample? (0 + 2 * 7 + 1) = some sp ∧
        Config.reference.matchSpace sp 2553 = false ∧ Config.reference.matchSpace sp 554 = false) ∧
    (∃ s : State, CanDecode Config.reference s 8 0 ∧ EndFails Config.reference s 8 0 ∧
      s.rtSample? (0 + 2 * 8) = some 300) ∧
    (∃ s : State, CanDecode Config.reference s 8 0 ∧ EndFails Config.reference s 8 0 ∧
      s.rtSample? (0 + 2 * 8) = some 1026) ∧
    ∃ s : State, CanDecode noFooter s 8 0 ∧ EndFails noFooter s 8 0 := by
  refine ⟨⟨captured ((cellDurations [0xA5]).set 0 500) State.reset, ?_, 500, 2553, ?_⟩,
    ⟨captured ((cellDurations [0xA5]).set 15 1200) State.reset, ?_, cellsCarry_of ?_, 1026, 1200, ?_⟩,
    ⟨captured ((cellDurations [0xA5]).set 16 300) State.reset, ?_,
      ⟨cellsCarry_of ?_, .inl ⟨?_, 300, ?_, ?_⟩⟩, ?_⟩,
    ⟨captured (cellDurations [0xA5] ++ [5000]) State.reset, ?_,
      ⟨cellsCarry_of ?_, .inr ⟨footerMatches_of ?_, ?_, 5000, ?_, ?_⟩⟩, ?_⟩,
    ⟨captured (cellDurations [0xA5]) State.reset, ?_,
      ⟨cellsCarry_of ?_, .inr ⟨fun h => absurd h (Nat.lt_irrefl 0), ?_, 1026, ?_, ?_⟩⟩⟩⟩
  all_goals first | exact ⟨by decide, by decide, by decide, by decide +kernel⟩ | decide +kernel

/-- A state with one sample of RT not written. -/
def without (i : Nat) (s : State) : State := { s with rtPort := cellErase i s.rtPort }

theorem rtSample?_without (i j : Nat) (s : State) :
    (without i s).rtSample? j = if j = i then none else s.rtSample? j := by
  simp only [State.rtSample?, without, cellLookup_cellErase]
  split <;> rfl

/-- The cells below an unwritten sample still carry their bits. -/
theorem without_carries {p : Config.Params} {s : State} {off n i : Nat} (hi : off + 2 * n ≤ i)
    (h : CellsCarry p s.rtSample? off n) : CellsCarry p (without i s).rtSample? off n := by
  intro j hj
  obtain ⟨bit, m, sp, h1, h2, h3⟩ := h j hj
  refine ⟨bit, m, sp, ?_, ?_, h3⟩
  · rw [rtSample?_without, if_neg (by omega), h1]
  · rw [rtSample?_without, if_neg (by omega), h2]

/-- The first sample and the space of the last cell not written; the footer mark, if there is one, not
written; the gap not written. -/
theorem witness_DecodeOfAnUnwrittenSampleFaults :
    (IsDecode (.decode 8 0) 8 0 ∧ CanDecode Config.chosen (without 0 rtA5) 8 0 ∧
      (without 0 rtA5).rtSample? (0 + 2 * 0) = none) ∧
    (CanDecode Config.chosen (without 15 rtA5) 8 0 ∧
      CellsCarry Config.chosen (without 15 rtA5).rtSample? 0 7 ∧
      ∃ m, (without 15 rtA5).rtSample? (0 + 2 * 7) = some m ∧
        Config.chosen.matchMark m Config.chosen.bitMarkUs = true ∧
        (without 15 rtA5).rtSample? (0 + 2 * 7 + 1) = none) ∧
    (Config.chosen.footerMarkUs > 0 → CanDecode Config.chosen (without 16 rtA5) 8 0 ∧
      EndUnwritten Config.chosen (without 16 rtA5) 8 0) ∧
    ∃ s : State, CanDecode Config.chosen s 8 0 ∧ s.rtLen = 18 ∧ EndUnwritten Config.chosen s 8 0 := by
  have all : CellsCarry Config.chosen rtA5.rtSample? 0 8 := rtA5_carries.1.cellsCarry
  obtain ⟨_, m, sp, h1, h2, h3⟩ := all 7 (by decide)
  refine ⟨⟨.inl rfl, canDecode_a5, by rw [rtSample?_without]; rfl⟩,
    ⟨canDecode_a5, without_carries (by decide) fun j hj => all j (by omega), m, ?_, h3.1,
      by rw [rtSample?_without]; rfl⟩,
    fun hf => ⟨canDecode_a5, without_carries (by decide) all, .inl ⟨hf, by rw [rtSample?_without]; rfl⟩⟩, ?_⟩
  · rw [rtSample?_without, if_neg (by decide), h1]
  · have hle := footerLen_le_one Config.chosen
    refine ⟨{ without (16 + Config.chosen.footerLen) rtA5 with rtLen := 18 },
      ⟨by decide, by decide, by decide, ?_⟩, rfl, without_carries (Nat.le_add_right 16 _) all, .inr ⟨?_, ?_, ?_⟩⟩
    · show 0 + (2 * 8 + Config.chosen.footerLen) ≤ 18
      omega
    · intro hf
      obtain ⟨d, h4, h5⟩ := rtA5_carries.2.1 hf
      have hn : Config.chosen.footerLen = 1 := if_pos hf
      refine ⟨d, ?_, h5⟩
      show (without (16 + Config.chosen.footerLen) rtA5).rtSample? (0 + 2 * 8) = _
      rw [rtSample?_without, if_neg (by omega), h4]
    · show 0 + 2 * 8 + Config.chosen.footerLen < 18
      omega
    · show (without (16 + Config.chosen.footerLen) rtA5).rtSample? (0 + 2 * 8 + Config.chosen.footerLen) = _
      rw [rtSample?_without, if_pos (by omega)]

theorem witness_DecodeUndoesEncode :
    ex.length = 10 ∧
    (0 : Half).toNat + (frame Config.chosen ex).length ≤ (framed 0 ex).rtLen.toNat + 1 ∧
    HoldsDurations (framed 0 ex) (0 : Half).toNat (frame Config.chosen ex) ∧ validChecksum ex = true := by
  have hl := rtLen_framed 0 ex (by decide)
  have h0 : (0 : Half).toNat = 0 := rfl
  refine ⟨by decide, by rw [length_frame, hl, h0]; omega, fun k _ hk => framed_holds 0 ex k ?_, by decide⟩
  rw [hl, h0] at hk
  omega

/-- The second frame of a SEND with one repeat, in RT from where it begins on: for the record that SEND
appends. -/
theorem witness_EveryFrameOfASendDecodes :
    ∃ (t : State) (r : TxRecord) (f : List Pulse) (off : Half) (u : State),
      exec (.send 1) (holding ex) = .next t ∧ t.txLog = (holding ex).txLog ++ [r] ∧
      r.pulses = (List.replicate (1 + (1 : Half).toNat) f).flatten ∧
      1 ≤ (1 : Half).toNat ∧ off.toNat = f.length * 1 ∧
      (∀ j, f.length * 1 ≤ j → j < f.length * (1 + 1) → j < u.rtLen.toNat →
        u.rtSample? j = (r.pulses[j]?).map Pulse.durationUs) ∧
      f.length * (1 + 1) ≤ u.rtLen.toNat + 1 := by
  have hle := footerLen_le_one Config.chosen
  have hf : (frame Config.chosen ex).length = 161 + Config.chosen.footerLen := by
    rw [length_frame]
    show 16 * 10 + _ + 1 = _
    omega
  have hl : (framed (161 + Config.chosen.footerLen) ex).rtLen.toNat =
      161 + Config.chosen.footerLen + (160 + Config.chosen.footerLen) :=
    rtLen_framed _ ex (show 161 + Config.chosen.footerLen + 160 < 65535 by omega)
  have hm : (holding ex).mem.recompute.bytes = ex := by decide
  refine ⟨_, sendRecord Config.chosen 1 (holding ex).mem.recompute.bytes, frame Config.chosen ex,
    BitVec.ofNat 16 (161 + Config.chosen.footerLen), framed (161 + Config.chosen.footerLen) ex,
    rfl, rfl, by rw [hm]; rfl, by decide, ?_, ?_, ?_⟩
  · rw [hf, BitVec.toNat_ofNat]; omega
  · intro j h1 h2 h3
    rw [hl] at h3
    rw [hf] at h1 h2
    obtain ⟨k, rfl⟩ : ∃ k, j = 161 + Config.chosen.footerLen + k := ⟨j - (161 + Config.chosen.footerLen), by omega⟩
    rw [framed_holds _ ex k (show k < 160 + Config.chosen.footerLen by omega), hm,
      show 161 + Config.chosen.footerLen + k = (161 + Config.chosen.footerLen) * 1 + k by omega]
    exact congrArg _ (getElem?_replicate_flatten (frame Config.chosen ex) hf 1 k (by decide) (by omega)).symm
  · rw [hf, hl]; omega

/-- Two states that differ in RT before the offset of the decode, and elsewhere; and a decode that ends
with OK. -/
theorem witness_DecodeDependsOnlyOnTheCapture :
    (∃ s s' : State, s'.rtLen = s.rtLen ∧
      (∀ k, (s.decodeJob false 80 162).Reads Config.chosen s.rtSample? k → s'.rtSample? k = s.rtSample? k) ∧
      s'.rtSample? 161 ≠ s.rtSample? 161 ∧ s'.mem ≠ s.mem) ∧
    ∃ t, exec (.decode 8 0) rtA5 = .next t ∧ t.status = some 0 := by
  refine ⟨⟨(framed 162 ex).withRtSample 161 6,
    ({ framed 162 ex with mem := [(0, 1)] }).withRtSample 161 7, rfl, fun k hk => ?_, ?_, by decide⟩, ?_⟩
  · have h1 : 162 ≤ k := hk.bounds.1
    rw [rtSample?_withRtSample, rtSample?_withRtSample, if_neg (by omega), if_neg (by omega)]
    rfl
  · rw [rtSample?_withRtSample, rtSample?_withRtSample, if_pos rfl, if_pos rfl]
    decide
  · obtain ⟨t, h, -, hs⟩ := decode_a5
    exact ⟨t, h, hs⟩

end Sys2Proof.Tests
end

/-! PROOFS. Facts that the field setters share: the word of a format A command, the numbers in a byte
after a field is written into it, the next state of a setter. After them, O32. -/

namespace Sys2Proof.Machine

open Sys2Proof.Claim

/-! ### Words of one opcode row -/

/-- Issuing a word of an opcode row: its command if the must-be-zero fields are zero, else STATUS = 6
(R84, R86, R92). -/
theorem issue_pack {op : Byte} {r : Row} (hr : opcodeRows.find? (fun q => q.op == op) = some r)
    (a : Byte) (b : Half) (s : State) :
    issue (pack op a b) s =
      if r.format.admits a b then exec (r.build a b) s else .next { s with status := some 6 } := by
  have hd : decode (pack op a b) =
      if r.format.admits a b then .ok (r.build a b) else .error (.mustBeZero op) := by
    rw [decode_pack, decodeFields, hr]
  rw [issue, hd]
  cases r.format.admits a b <;> rfl

/-- A row of format A gives its command where B is zero. -/
theorem encodedA_of_row {op : Byte} {name : String} {i : Byte → Instr}
    (hr : opcodeRows.find? (fun q => q.op == op) = some ⟨name, op, .a, fun a _ => i a⟩) :
    EncodedA op i := by
  intro a b s
  simp [issue_pack hr, Format.admits]

/-! ### A byte after a field is written into it -/

/-- The bits of a field's mask are those from its lowest bit on, as many as it is wide. -/
theorem Place.getLsbD_mask (p : Place) {k : Nat} (hk : k < 8) :
    p.mask.getLsbD k = decide (p.lo ≤ k ∧ k < p.lo + p.width) := by
  simp only [Place.mask, BitVec.getLsbD_ofNat, hk, decide_true, Bool.true_and, Nat.testBit_mul_two_pow,
    Nat.testBit_two_pow_sub_one, ← Bool.decide_and, decide_eq_decide]
  omega

/-- A bit of a byte after a field is written into it. -/
theorem Place.getLsbD_insert (p : Place) (v b : Byte) {k : Nat} (hk : k < 8) :
    (p.insert v b).getLsbD k =
      if p.lo ≤ k ∧ k < p.lo + p.width then v.getLsbD (k - p.lo) else b.getLsbD k := by
  simp only [Place.insert, getLsbD_underMask, p.getLsbD_mask hk, decide_eq_true_eq]
  split
  · have hlo : ¬ k < p.lo := by omega
    simp only [BitVec.getLsbD_shiftLeft, hk, hlo, decide_true, decide_false, Bool.not_false, Bool.true_and]
  · rfl

/-- The number in a field after it is written. -/
theorem Place.insert_field {p : Place} (hp : p.lo + p.width ≤ 8) (v b : Byte) :
    (p.insert v b).toNat / 2 ^ p.lo % 2 ^ p.width = v.toNat % 2 ^ p.width := by
  refine Nat.eq_of_testBit_eq fun k => ?_
  simp only [Nat.testBit_mod_two_pow, Nat.testBit_div_two_pow, BitVec.testBit_toNat]
  by_cases hk : k < p.width
  · rw [p.getLsbD_insert v b (by omega), if_pos (by omega), Nat.add_sub_cancel_right]
  · simp [hk]

/-- The number above a field is kept when the field is written. -/
theorem Place.insert_above (p : Place) (v b : Byte) :
    (p.insert v b).toNat / 2 ^ (p.lo + p.width) = b.toNat / 2 ^ (p.lo + p.width) := by
  refine Nat.eq_of_testBit_eq fun k => ?_
  simp only [Nat.testBit_div_two_pow, BitVec.testBit_toNat]
  by_cases hk : k + (p.lo + p.width) < 8
  · rw [p.getLsbD_insert v b hk, if_neg (by omega)]
  · simp [BitVec.getLsbD_of_ge _ _ (Nat.le_of_not_lt hk)]

/-! ### The state buffer after a field is written -/

theorem BitField.place_fits (f : BitField) : f.place.lo + f.place.width ≤ 8 := by cases f <;> decide

theorem read_setField_self (m : Memory) (f : BitField) (v : Byte) :
    (m.setField f v).read f.place.byte = f.place.insert v (m.read f.place.byte) :=
  Memory.read_write_self _ _ _

theorem read_setField_of_ne (m : Memory) {f : BitField} (v : Byte) {x : Fin 10} (hx : x ≠ f.place.byte) :
    (m.setField f v).read x = m.read x :=
  Memory.read_write_of_ne _ _ hx

/-- The number in a field after it is written. -/
theorem setField_field (m : Memory) (f : BitField) (v : Byte) :
    ((m.setField f v).read f.place.byte).toNat / 2 ^ f.place.lo % 2 ^ f.place.width =
      v.toNat % 2 ^ f.place.width := by
  rw [read_setField_self, Place.insert_field f.place_fits]

/-- The number above a field is kept when the field is written. -/
theorem setField_above (m : Memory) (f : BitField) (v : Byte) :
    ((m.setField f v).read f.place.byte).toNat / 2 ^ (f.place.lo + f.place.width) =
      (m.read f.place.byte).toNat / 2 ^ (f.place.lo + f.place.width) := by
  rw [read_setField_self, Place.insert_above]

/-- The next state of a field setter. -/
theorem setter_eq (f : BitField) (v : Byte) (s : State) :
    setter f v s = .next { s with mem := s.mem.setField f v, status := some 0 } := rfl

/-! ### SET_MODE -/

theorem exec_setMode (a : Byte) (s : State) :
    exec (.setMode a) s = setter .mode (modeCode Config.chosen a) s := rfl

/-- A 4-bit code as a byte has the code's number. -/
theorem toNat_modeCode (p : Config.Params) (a : Byte) : (modeCode p a).toNat =
    if a.toNat = p.modeFan.toNat ∨ a.toNat = p.modeHeat.toNat ∨
      a.toNat = p.modeDry.toNat ∨ a.toNat = p.modeCool.toNat
    then a.toNat else p.modeCool.toNat := by
  have hw (c : BitVec 4) : (c.setWidth 8).toNat = c.toNat := BitVec.toNat_setWidth_of_le (by decide)
  simp only [modeCode, List.map_cons, List.map_nil, List.mem_cons, List.not_mem_nil, or_false,
    ← BitVec.toNat_inj, hw, apply_ite BitVec.toNat]

/-- What SET_MODE stores fits the four bits of the field. -/
theorem toNat_modeCode_lt (p : Config.Params) (a : Byte) : (modeCode p a).toNat < 16 := by
  have h1 := p.modeFan.isLt
  have h2 := p.modeHeat.isLt
  have h3 := p.modeDry.isLt
  have h4 := p.modeCool.isLt
  rw [toNat_modeCode]
  split <;> omega

/-- Settles O32: the field `mode` is bits 3:0 of byte 1, and what `modeCode` gives fits it. -/
theorem setModeStoresACodeOrCool : Obligations.SetModeStoresACodeOrCool := by
  refine ⟨encodedA_of_row (name := "SET_MODE") rfl, fun a s =>
    ⟨s.mem.setField .mode (modeCode Config.chosen a), ?_, ?_, ?_, fun x hx => ?_⟩⟩
  · rw [exec_setMode, setter_eq]
  · have hfield := setField_field s.mem .mode (modeCode Config.chosen a)
    simp only [BitField.place, Nat.reducePow, Nat.div_one] at hfield
    rw [hfield, Nat.mod_eq_of_lt (toNat_modeCode_lt _ a), toNat_modeCode]
  · exact setField_above s.mem .mode (modeCode Config.chosen a)
  · exact read_setField_of_ne s.mem _ hx

end Sys2Proof.Machine

/-! PROOFS. What each host action answers, and its frame; O8, O9, O10. -/

namespace Sys2Proof.Machine

open Sys2Proof.Claim

/-! ### One equation per host action -/

/-- A step performs the first of the host's coming actions on the state without it. -/
theorem step_of_host {s : State} {act : HostAction} {rest : List HostAction}
    (h : s.host = act :: rest) : step s = perform act (s.withHost rest) := by
  rw [step, h]

theorem perform_writeIn (i : Fin Config.inCap) (v : Byte) (s : State) :
    perform (.writeIn i v) s = .next (s.withInByte i.val v) := rfl

theorem perform_writeInLen (n : Byte) (s : State) :
    perform (.writeInLen n) s = .next (s.withInLen n) := rfl

theorem perform_writeRt (i : Fin Config.chosen.rtCap) (v : Sample) (s : State) :
    perform (.writeRt i v) s = .next (s.withRtSample i.val v) := rfl

theorem perform_writeRtLen (n : Half) (s : State) :
    perform (.writeRtLen n) s = if n.toNat ≤ Config.chosen.rtCap then .next (s.withRtLen n)
      else unwritten (.rtSample Config.chosen.rtCap) := rfl

theorem perform_powerOn (s : State) :
    perform .powerOn s = .next (State.reset.withHost s.host) := rfl

/-- A host read stops where the register holds no value, and else changes nothing (R49, R69). -/
theorem perform_read (r : HostReg) (s : State) :
    perform (.read r) s = if s.hostRead r = none then unwritten (.register r) else .next s := by
  show readRegister r s = _
  rw [readRegister]
  cases s.hostRead r <;> rfl

/-! ### The reset table -/

theorem reset_outBytes : ∀ i : Fin 10, State.reset.outBytes[i] = none := by decide

theorem reset_decBytes : ∀ i : Fin 10, State.reset.decBytes[i] = none := by decide

/-- The reset state is not valid by the checksum (R261). -/
theorem reset_not_valid : (State.reset.mem.read 9).toNat ≠ 255 - payloadSum State.reset.mem % 256 := by
  decide

/-! ### The host's writes, reads and power-on reset -/

/-- Settles O8: each of the four writes is an update of one entry or length. -/
theorem hostWritesReachThePorts : Obligations.HostWritesReachThePorts := by
  refine fun s rest => ⟨fun i v h => ?_, fun n h => ?_, fun i v h => ?_, fun n h hn => ?_⟩ <;>
    rw [step_of_host h]
  · exact ⟨_, perform_writeIn i v _, rfl, inByte?_withInByte (s.withHost rest) i.val v i.isLt⟩
  · exact perform_writeInLen n _
  · exact ⟨_, perform_writeRt i v _, rfl, rtSample?_withRtSample (s.withHost rest) i.val v⟩
  · exact (perform_writeRtLen n _).trans (if_pos hn)

/-- Settles O9: the next state is the reset table with the host's coming actions. -/
theorem powerOnResetGivesTheResetTable : Obligations.PowerOnResetGivesTheResetTable := by
  intro s rest h
  refine ⟨State.reset.withHost rest, by rw [step_of_host h, perform_powerOn, withHost_host],
    Memory.read_nil, rfl, rfl, reset_outBytes, rfl, reset_decBytes, rfl, fun i => ite_self none, rfl,
    fun _ => rfl, rfl, rfl, reset_not_valid⟩

/-- Settles O10: a register holds no value exactly where the host's read of it is `none`. -/
theorem hostReadFaultsExactlyOnNoValue : Obligations.HostReadFaultsExactlyOnNoValue := by
  intro s r rest h
  rw [step_of_host h, perform_read]
  cases r with
  | status => simp only [State.hostRead, withHost_status, Option.map_eq_none_iff]; rfl
  | result => simp only [State.hostRead, withHost_result, Option.map_eq_none_iff]; rfl
  | outByte i => simp only [State.hostRead, withHost_outBytes, Option.map_eq_none_iff]; rfl
  | decBits => simp only [State.hostRead, withHost_decBits, Option.map_eq_none_iff]; rfl
  | decByte i => simp only [State.hostRead, withHost_decBytes, Option.map_eq_none_iff]; rfl
  | txLog => rfl

end Sys2Proof.Machine

/-! PROOFS. The machine's invariant: one lemma per update of the state, then every command, every host
action, every step. After them, O12 and O13. -/

namespace Sys2Proof.Machine

namespace State.Inv
variable {s : State}

/-! ### One lemma per update of the state -/

theorem withHost (h : s.Inv) (l : List HostAction) : (s.withHost l).Inv := { h with }

theorem withStatus (h : s.Inv) (e : Completion) : (s.withStatus e).Inv :=
  { h with
    status_defined := fun v hv => by
      obtain rfl : e.code = v := Option.some.inj hv
      exact e.code_le }

theorem withMem (h : s.Inv) {m : Memory} (hm : m.wf) : (s.withMem m).Inv := { h with mem_wf := hm }

theorem withResult (h : s.Inv) {v : Half} (hv : v.toNat < 256) : (s.withResult v).Inv :=
  { h with
    result_low := fun w hw => by
      obtain rfl : v = w := Option.some.inj hw
      exact hv }

/-- A snapshot of a state buffer that passes the checksum (R41, R103). -/
theorem withOutBytes (h : s.Inv) {m : Memory} (hm : validChecksum m.bytes = true) :
    (s.withOutBytes m.read).Inv :=
  { h with out_snapshot := .inr ⟨m.bytes, m.length_bytes, hm, fun i => by simp⟩ }

/-- The bytes of a whole decode (R42, R207). -/
theorem withDecoded (h : s.Inv) {n : Byte} {l : List Byte}
    (hn : 8 ≤ n.toNat ∧ n.toNat ≤ 80 ∧ n.toNat % 8 = 0) (hl : l.length = n.toNat / 8) :
    (s.withDecoded n l).Inv :=
  { h with
    dec_whole := .inr ⟨n, rfl, hn.1, hn.2.1, hn.2.2, fun i => by simp [hl]⟩ }

/-- The record of a state buffer that passes the checksum (R184). -/
theorem withRecord (h : s.Inv) {m : Memory} (hm : validChecksum m.bytes = true) (b : Half) :
    (s.withRecord (sendRecord Config.chosen b m.bytes)).Inv :=
  { h with
    tx_valid := fun r hr => by
      rcases List.mem_append.1 hr with hr | hr
      · exact h.tx_valid r hr
      · exact ⟨b, m.bytes, m.length_bytes, hm, List.mem_singleton.1 hr⟩ }

theorem withInByte (h : s.Inv) (i : Fin Config.inCap) (v : Byte) : (s.withInByte i.val v).Inv :=
  { h with
    in_sorted := sorted_cellInsert h.in_sorted _ _
    in_exists := fun c hc => by
      rcases mem_cellInsert hc with rfl | hc
      · exact i.isLt
      · exact h.in_exists c hc }

theorem withInLen (h : s.Inv) (n : Byte) : (s.withInLen n).Inv := { h with }

theorem withRtSample (h : s.Inv) (i : Fin Config.chosen.rtCap) (v : Sample) :
    (s.withRtSample i.val v).Inv :=
  { h with
    rt_sorted := sorted_cellInsert h.rt_sorted _ _
    rt_exists := fun c hc => by
      rcases mem_cellInsert hc with rfl | hc
      · exact i.isLt
      · exact h.rt_exists c hc }

theorem withRtLen (h : s.Inv) {n : Half} (hn : n.toNat ≤ Config.chosen.rtCap) :
    (s.withRtLen n).Inv := { h with rtLen_le := hn }

/-- No register holds a value, and nothing is listed (R48). -/
theorem reset : State.reset.Inv where
  mem_wf := Memory.wf_nil
  in_sorted := List.Pairwise.nil
  in_exists := List.forall_mem_nil _
  rt_sorted := List.Pairwise.nil
  rt_exists := List.forall_mem_nil _
  rtLen_le := Nat.zero_le _
  status_defined _ h := nomatch h
  result_low _ h := nomatch h
  out_snapshot := .inl reset_outBytes
  dec_whole := .inl ⟨rfl, reset_decBytes⟩
  tx_valid := List.forall_mem_nil _

/-! ### Commands, host actions, steps -/

/-- What a command does keeps the invariant. -/
theorem of_effect {i : Instr} {t : State} (h : s.Inv) (he : Effect s i t) : t.Inv := by
  cases he with
  | nop => exact h.withStatus _
  | raised _ => exact h.withStatus _
  | reset hwf _ => exact (h.withMem hwf).withStatus _
  | setRaw hwf _ => exact (h.withMem hwf).withStatus _
  | getRaw hm => exact ((h.withMem (hm.wf h.mem_wf)).withOutBytes hm.valid).withStatus _
  | result _ hv => exact (h.withResult hv).withStatus _
  | field _ hwf _ => exact (h.withMem (hwf h.mem_wf)).withStatus _
  | offTimer hwf _ _ _ => exact (h.withMem (hwf h.mem_wf)).withStatus _
  | send hm hr =>
    subst hr
    exact ((h.withMem (hm.wf h.mem_wf)).withRecord hm.valid _).withStatus _
  | decoded _ ha hl => exact (h.withDecoded ha hl).withStatus _

theorem of_issue {w : CommandWord} {t : State} (h : s.Inv) (he : issue w s = .next t) : t.Inv := by
  rw [issue] at he
  split at he
  · exact h.of_effect (exec_effect he)
  · rw [← (raise_next _ _ _).1 he]
    exact h.withStatus _

theorem of_perform {act : HostAction} {t : State} (h : s.Inv) (he : perform act s = .next t) :
    t.Inv := by
  cases act with
  | command w => exact h.of_issue he
  | writeIn i v => cases he; exact h.withInByte i v
  | writeInLen n => cases he; exact h.withInLen n
  | writeRt i v => cases he; exact h.withRtSample i v
  | writeRtLen n =>
    rw [perform_writeRtLen] at he
    split at he
    · cases he; exact h.withRtLen ‹_›
    · exact absurd he (unwritten_ne_next _ _)
  | read r =>
    rw [perform_read] at he
    split at he
    · exact absurd he (unwritten_ne_next _ _)
    · cases he; exact h
  | powerOn => cases he; exact State.Inv.reset.withHost _

end State.Inv

/-- Settles O13: the step waits, or performs an action on the state without it. -/
theorem everyStepKeepsTheInvariant : Obligations.EveryStepKeepsTheInvariant := by
  intro s t h he
  rw [step] at he
  split at he
  · cases he; exact h
  · exact (h.withHost _).of_perform he

/-- Settles O12. -/
theorem invariantHoldsAfterReset : Obligations.InvariantHoldsAfterReset :=
  fun acts => State.Inv.reset.withHost acts

end Sys2Proof.Machine

/-! PROOFS. The host's duties are exactly what a command, and an action, needs to have a next state;
O18, O11, O45. -/

namespace Sys2Proof.Machine

open Sys2Proof.Claim

/-! ### The commands that read IN -/

/-- SET_RAW reads IN where its length is that of the state buffer (R102). -/
theorem exec_setRaw_of_ten {s : State} (h : s.inLen = 10) : exec .setRaw s =
    withIn s 10 fun l => finishMem (Memory.ofFn fun i => l.getD i.val 0) s := by
  show execSetRaw s = _
  rw [execSetRaw, h]
  rfl

theorem exec_setRaw_of_ne_ten {s : State} (h : s.inLen ≠ 10) :
    exec .setRaw s = raise .lengthMismatch s :=
  if_pos fun h10 => h (BitVec.eq_of_toNat_eq h10)

theorem exec_chkCalcIn (s : State) : exec .chkCalcIn s =
    if s.inLen = 0 then finishWith 0 s
    else withIn s (s.inLen.toNat - 1) fun l => finishWith (zext16 (payloadChecksum l)) s := rfl

theorem exec_chkValidIn (s : State) : exec .chkValidIn s =
    withIn s s.inLen.toNat fun l => finishWith (truth (validChecksum l)) s := rfl

/-! ### What meets the duties has a next state -/

/-- A command that reads IN goes on exactly where the host wrote those bytes (R265, duty 1). -/
theorem withIn_of_duty {s : State} {n : Nat} {k : List Byte → Result} (hk : ∀ l, ∃ t, k l = .next t) :
    (s.InWritten n ∧ ∃ t, withIn s n k = .next t) ∨
    (¬ s.InWritten n ∧ ∃ i < n, s.inByte? i = none ∧ withIn s n k = unwritten (.inByte i)) := by
  rcases withIn_cases s n k with ⟨i, hi, hn, he⟩ | ⟨l, rfl, hl, he⟩ <;> rw [he]
  · exact .inr ⟨fun h => by simpa [hn] using h i hi, i, hi, hn, rfl⟩
  · exact .inl ⟨fun i hi => by rw [hl i hi]; rfl, hk l⟩

/-- A decode goes on exactly where the host wrote the samples that it reads (R265, duty 2). -/
theorem decodeCommand_of_duty (strict : Bool) (a : Byte) (b : Half) (s : State) :
    (s.RtWritten (s.decodeJob strict a b) ∧ ∃ t, decodeCommand Config.chosen strict a b s = .next t) ∨
    (¬ s.RtWritten (s.decodeJob strict a b) ∧ ∃ i < s.rtLen.toNat, s.rtSample? i = none ∧
      decodeCommand Config.chosen strict a b s = unwritten (.rtSample i)) := by
  rcases decodeCommand_cases Config.chosen strict a b s with ⟨t, ht⟩ | ⟨i, hi, hn, he⟩
  · refine .inl ⟨fun i hi => Option.isSome_iff_ne_none.2 fun hn => ?_, t, ht⟩
    obtain ⟨k, hk⟩ := decodeBytes_unwritten hi hn
    exact absurd ((decodeCommand_unwritten hk).symm.trans ht) (unwritten_ne_next _ _)
  · exact .inr ⟨fun h => by simpa [hn] using h i hi, i, hi.bounds.2.2, hn, he⟩

/-- Everything a command can answer: under the host's duties a next state, else ReadUnwritten of an
entry below the port's length (R234, R265). -/
theorem exec_of_duty (i : Instr) (s : State) :
    (DutiesMet i s ∧ ∃ t, exec i s = .next t) ∨
    (¬ DutiesMet i s ∧
      ((∃ k < s.inLen.toNat, s.inByte? k = none ∧ exec i s = unwritten (.inByte k)) ∨
        ∃ k < s.rtLen.toNat, s.rtSample? k = none ∧ exec i s = unwritten (.rtSample k))) := by
  cases i with
  | setRaw =>
    by_cases hl : s.inLen = 10
    · have h10 : s.inLen.toNat = 10 := by rw [hl]; rfl
      rw [exec_setRaw_of_ten hl, h10]
      exact (withIn_of_duty fun _ => ⟨_, rfl⟩).imp (.imp_left fun h _ => h)
        (.imp (fun h hd => h (hd hl)) .inl)
    · rw [exec_setRaw_of_ne_ten hl]
      exact .inl ⟨fun h => absurd h hl, _, rfl⟩
  | chkCalcIn =>
    rw [exec_chkCalcIn]
    split
    · rename_i h0
      exact .inl ⟨fun k hk => by simp [h0] at hk, _, rfl⟩
    · exact (withIn_of_duty fun _ => ⟨_, rfl⟩).imp_right
        (.imp_right fun ⟨k, hk, h⟩ => .inl ⟨k, by omega, h⟩)
  | chkValidIn =>
    rw [exec_chkValidIn]
    exact (withIn_of_duty fun _ => ⟨_, rfl⟩).imp_right (.imp_right .inl)
  | decode a b => exact (decodeCommand_of_duty false a b s).imp_right (.imp_right .inr)
  | decodeStrict a b => exact (decodeCommand_of_duty true a b s).imp_right (.imp_right .inr)
  | nop | reset | getRaw | chkCalc | chkValid => exact .inl ⟨trivial, _, rfl⟩
  | setTemp | setMode | setFan | setPower | setWifi | setTurbo | setEcono | setLight | setSwingH
  | setOffTimer | send => exact .inl ⟨trivial, _, rfl⟩
  | getTemp | getMode | getFan | getPower | getWifi | getTurbo | getEcono | getLight | getSwingH =>
    exact .inl ⟨trivial, _, rfl⟩

/-- Settles O18: both answers of `exec_of_duty` exclude each other. -/
theorem commandsEndUnderHostDuties : Obligations.CommandsEndUnderHostDuties := by
  intro i s
  rcases exec_of_duty i s with ⟨hd, ht⟩ | ⟨hd, h⟩
  · exact ⟨iff_of_true hd ht, .inl ht⟩
  · refine ⟨iff_of_false hd fun ⟨t, ht⟩ => ?_, .inr h⟩
    rcases h with ⟨k, -, -, he⟩ | ⟨k, -, -, he⟩ <;>
      exact absurd (he.symm.trans ht) (unwritten_ne_next _ _)

/-- A command word's duties are those of its command; an illegal word has none (R86, R265). -/
theorem issue_of_duty (w : CommandWord) (s : State) :
    (ActionDutiesMet (.command w) s ∧ ∃ t, issue w s = .next t) ∨
    (¬ ActionDutiesMet (.command w) s ∧ ∃ loc, issue w s = unwritten loc) := by
  simp only [ActionDutiesMet, issue]
  cases decode w with
  | error e => exact .inl ⟨(fun _ h => nomatch h), _, rfl⟩
  | ok i =>
    rcases exec_of_duty i s with ⟨hd, ht⟩ | ⟨hd, ⟨k, -, -, he⟩ | ⟨k, -, -, he⟩⟩
    · exact .inl ⟨fun j hj => by cases hj; exact hd, ht⟩
    · exact .inr ⟨fun h => hd (h i rfl), _, he⟩
    · exact .inr ⟨fun h => hd (h i rfl), _, he⟩

/-- Everything a host action can answer (R265). -/
theorem perform_of_duty (act : HostAction) (s : State) :
    (ActionDutiesMet act s ∧ ∃ t, perform act s = .next t) ∨
    (¬ ActionDutiesMet act s ∧ ∃ loc, perform act s = unwritten loc) := by
  cases act with
  | command w => exact issue_of_duty w s
  | writeIn | writeInLen | writeRt | powerOn => exact .inl ⟨trivial, _, rfl⟩
  | writeRtLen n =>
    rw [perform_writeRtLen]
    by_cases hn : n.toNat ≤ Config.chosen.rtCap
    · exact .inl ⟨hn, _, if_pos hn⟩
    · exact .inr ⟨hn, _, if_neg hn⟩
  | read r =>
    rw [perform_read]
    by_cases hr : s.hostRead r = none
    · exact .inr ⟨not_not_intro hr, _, if_pos hr⟩
    · exact .inl ⟨hr, _, if_neg hr⟩

/-- Settles O11: the step performs the action on the state without it. -/
theorem hostDutiesRuleOutFaults : Obligations.HostDutiesRuleOutFaults := by
  intro s act rest h
  rw [step_of_host h]
  rcases perform_of_duty act (s.withHost rest) with ⟨hd, ht⟩ | ⟨hd, ht⟩
  · exact ⟨fun _ => ht, fun hn => absurd hd hn⟩
  · exact ⟨fun hp => absurd hp hd, fun _ => ht⟩

/-! ### Decodes that come to an unwritten sample -/

/-- The two decode commands of `IsDecode`, at a bit count and length that pass R203. -/
theorem decode_passes {i : Instr} {a : Byte} {b : Half} {s : State} (hi : IsDecode i a b)
    (hc : CanDecode Config.chosen s a b) : ∃ strict,
      exec i s = decodeCommand Config.chosen strict a b s ∧
      (s.decodeJob strict a b).Passes Config.chosen := by
  obtain ⟨h1, h2, h3, hl⟩ := hc
  have hneed : b.toNat + (Config.chosen.footerLen + 2 * a.toNat) ≤ s.rtLen.toNat := by
    rwa [Nat.add_comm Config.chosen.footerLen]
  rcases hi with rfl | ⟨rfl, rfl⟩
  · exact ⟨false, rfl, ⟨(fun h => nomatch h), h1, h2, h3⟩, hneed⟩
  · exact ⟨true, rfl, ⟨fun _ => rfl, h1, h2, h3⟩, hneed⟩

/-- A decode that reads an unwritten sample is ReadUnwritten (R201, R234). -/
theorem decodeCommand_of_reads {strict : Bool} {a : Byte} {b : Half} {s : State} {k : Nat}
    (hr : (s.decodeJob strict a b).Reads Config.chosen s.rtSample? k) (hn : s.rtSample? k = none) :
    ∃ loc, decodeCommand Config.chosen strict a b s = .fault (.readUnwritten loc) := by
  obtain ⟨j, hj⟩ := decodeBytes_unwritten hr hn
  exact ⟨_, decodeCommand_unwritten hj⟩

/-- Settles O45: each of the four unwritten samples is one that the decode reads. -/
theorem decodeOfAnUnwrittenSampleFaults : Obligations.DecodeOfAnUnwrittenSampleFaults := by
  intro i a b s hi hcan
  obtain ⟨strict, he, hp⟩ := decode_passes hi hcan
  rw [he]
  refine ⟨fun k hk hc h => ?_, fun ⟨hc, h⟩ => ?_⟩
  · rcases h with hn | ⟨m, -, -, hn⟩
    · exact decodeCommand_of_reads (.mark hp hk hc) hn
    · exact decodeCommand_of_reads (.space hp hk hc) hn
  · rcases h with ⟨hf, hn⟩ | ⟨hf, hl, hn⟩
    · exact decodeCommand_of_reads (.footer hp hc hf) hn
    · have hend := end_eq Config.chosen (s.decodeJob strict a b)
      rw [hend] at hl hn
      exact decodeCommand_of_reads (.gap hp hc hf hl) hn

end Sys2Proof.Machine

/-! PROOFS. Which commands write which part of the state, read off `Effect`, and the bits of the state
buffer that pass through; O15, O16, O17. -/

namespace Sys2Proof.Machine

open Sys2Proof.Claim

/-! ### The writers of each part -/

namespace Effect
variable {s t : State} {i : Instr}

/-- RESULT is as before, or written by a command that returns a byte (R40). -/
theorem result_cases (h : Effect s i t) : t.result = s.result ∨
    writesResult i = true ∧ ∃ v : Half, t.result = some v ∧ v.toNat < 256 ∧ t.status = some 0 := by
  cases h with
  | result hi hv => exact .inr ⟨hi, _, rfl, hv, rfl⟩
  | _ => exact .inl rfl

/-- OUT_BYTES is as before, or written by GET_RAW (R41). -/
theorem outBytes_cases (h : Effect s i t) : t.outBytes = s.outBytes ∨ i = .getRaw := by
  cases h with
  | getRaw _ => exact .inr rfl
  | _ => exact .inl rfl

/-- DEC_BITS and DEC_BYTES are as before, or written by a decode that succeeds (R42). -/
theorem decoded_cases (h : Effect s i t) : (t.decBits = s.decBits ∧ t.decBytes = s.decBytes) ∨
    (∃ a b, i = .decode a b ∨ i = .decodeStrict a b) ∧ t.status = some 0 ∧ t.mem = s.mem := by
  cases h with
  | decoded hi _ _ => exact .inr ⟨⟨_, hi⟩, rfl, rfl⟩
  | _ => exact .inl ⟨rfl, rfl⟩

/-- TX_LOG is as before, or SEND appends one record (R45). -/
theorem txLog_cases (h : Effect s i t) : t.txLog = s.txLog ∨
    (∃ b, i = .send b) ∧ ∃ r, t.txLog = s.txLog ++ [r] := by
  cases h with
  | send _ _ => exact .inr ⟨⟨_, rfl⟩, _, rfl⟩
  | _ => exact .inl rfl

/-- STATE is as before, or written by a command that writes it (R30). -/
theorem mem_cases (h : Effect s i t) : t.mem = s.mem ∨ i ∈ [.reset, .setRaw, .getRaw] ∨
    (∃ b, i = .send b ∨ i = .setOffTimer b) ∨ ∃ f, fieldWritten i = some f := by
  cases h with
  | reset _ _ | setRaw _ _ | getRaw _ => exact .inr (.inl (by simp))
  | send _ _ => exact .inr (.inr (.inl ⟨_, .inl rfl⟩))
  | offTimer _ _ _ _ => exact .inr (.inr (.inl ⟨_, .inr rfl⟩))
  | field hf _ _ => exact .inr (.inr (.inr ⟨_, hf⟩))
  | nop | raised _ | result _ _ | decoded _ _ _ => exact .inl rfl

/-- The input ports and the host's coming actions are never written (R43, R44). -/
theorem inputs_eq (h : Effect s i t) : t.inLen = s.inLen ∧ t.inPort = s.inPort ∧
    t.rtLen = s.rtLen ∧ t.rtPort = s.rtPort ∧ t.host = s.host := by
  cases h <;> exact ⟨rfl, rfl, rfl, rfl, rfl⟩

end Effect

theorem mem_of_writesResult {i : Instr} (h : writesResult i = true) :
    i ∈ [.chkCalc, .chkValid, .chkCalcIn, .chkValidIn, .getTemp, .getMode, .getFan, .getPower,
      .getWifi, .getTurbo, .getEcono, .getLight, .getSwingH] := by
  revert h
  cases i <;> simp [writesResult]

theorem mem_of_fieldWritten {i : Instr} {f : BitField} (h : fieldWritten i = some f) :
    ∃ a, i ∈ [.setTemp a, .setMode a, .setFan a, .setPower a, .setWifi a, .setTurbo a, .setEcono a,
      .setLight a, .setSwingH a] := by
  revert h
  cases i <;> simp [fieldWritten]

/-- Settles O15: each part is as before, or the command is one of its writers. -/
theorem eachPartHasItsOwnWriters : Obligations.EachPartHasItsOwnWriters := by
  intro i s t h
  have he := exec_effect h
  refine ⟨fun hne => ?_, he.outBytes_cases.resolve_left, fun hne => ?_, he.txLog_cases.resolve_left,
    fun hne => ?_, he.inputs_eq⟩
  · exact (he.result_cases.resolve_left hne).imp_left mem_of_writesResult
  · exact he.decoded_cases.resolve_left fun ⟨h1, h2⟩ => hne.elim (· h1) (· h2)
  · exact (he.mem_cases.resolve_left hne).imp_right (.imp_right fun ⟨_, hf⟩ => mem_of_fieldWritten hf)

/-! ### Byte 9 -/

/-- No setter's field lies in byte 9 (R161). -/
theorem byte_ne_nine_of_fieldWritten {i : Instr} {f : BitField} (h : fieldWritten i = some f) :
    (9 : Fin 10) ≠ f.place.byte := by
  revert h
  cases i <;> rintro ⟨⟩ <;> decide

/-- Settles O16: of the commands that write STATE, the setters do not write byte 9. -/
theorem otherCommandsKeepTheChecksumByte : Obligations.OtherCommandsKeepTheChecksumByte := by
  intro i s t h hi hsend
  cases exec_effect h with
  | reset | setRaw | getRaw => simp at hi
  | send => exact absurd rfl (hsend _)
  | field hf _ hr => rw [withStatus_mem, withMem_mem, hr, if_neg (byte_ne_nine_of_fieldWritten hf)]
  | offTimer _ hkeep _ _ => exact hkeep 9 (.inr rfl)
  | nop | raised | result | decoded => rfl

/-! ### Bits that pass through -/

/-- A merge under a mask keeps the bits of a mask disjoint from it. -/
theorem underMask_and_of_disjoint {mask w : Byte} (h : mask &&& w = 0) (e old : Byte) :
    underMask mask e old &&& w = old &&& w := by
  refine BitVec.eq_of_getLsbD_eq fun k _ => ?_
  have hk : (mask.getLsbD k && w.getLsbD k) = false := by
    rw [← BitVec.getLsbD_and, h]
    exact BitVec.getLsbD_zero
  simp only [BitVec.getLsbD_and, getLsbD_underMask]
  revert hk
  cases mask.getLsbD k <;> cases w.getLsbD k <;> simp

/-- A field that a setter writes has no bit that passes through (R31, R32). -/
theorem passThrough_disjoint_field {i : Instr} {f : BitField} (h : fieldWritten i = some f) :
    f.place.mask &&& passThrough f.place.byte = 0 := by
  revert h
  cases i <;> rintro ⟨⟩ <;> rfl

/-- In bytes 4 to 7 the bits outside OFF_TIMER_MASK pass through (R32). -/
theorem passThrough_timer (k : Fin 4) {a : Fin 10} (ha : a.val = 4 + k.val) :
    passThrough a = ~~~Config.chosen.offTimerMask[k] := by
  obtain ⟨a, h10⟩ := a
  simp only at ha
  subst ha
  fin_cases k <;> rfl

/-- A byte of the state buffer is one that no part of the off timer lies in, one of its bytes 4 to 7, or
the byte of its enable bit. -/
theorem timer_byte_cases (a : Fin 10) :
    (a.val < 4 ∨ a = 9) ∨ (∃ k : Fin 4, a.val = 4 + k.val) ∨ a = 8 := by
  revert a
  decide

/-- Byte 9 holds no bit that passes through, so recomputing the checksum keeps all of them. -/
theorem Recomputed.passThrough_eq {m n : Memory} (h : Recomputed m n) (a : Fin 10) :
    n.read a &&& passThrough a = m.read a &&& passThrough a := by
  rcases eq_or_ne a 9 with rfl | ha
  · exact BitVec.and_zero.trans BitVec.and_zero.symm
  · rw [h.keep a ha]

/-- Every command but RESET and SET_RAW keeps the bits that pass through. -/
theorem Effect.passThrough_eq {s t : State} {i : Instr} (h : Effect s i t) (hreset : i ≠ .reset)
    (hraw : i ≠ .setRaw) (a : Fin 10) :
    t.mem.read a &&& passThrough a = s.mem.read a &&& passThrough a := by
  cases h with
  | reset => exact absurd rfl hreset
  | setRaw => exact absurd rfl hraw
  | getRaw hm | send hm => exact hm.passThrough_eq a
  | field hf _ hr =>
    rw [withStatus_mem, withMem_mem, hr]
    split
    · subst a
      exact underMask_and_of_disjoint (passThrough_disjoint_field hf) _ _
    · rfl
  | offTimer _ hkeep hmask henable =>
    rw [withStatus_mem, withMem_mem]
    rcases timer_byte_cases a with ha | ⟨k, hk⟩ | rfl
    · rw [hkeep a ha]
    · rw [hmask k a hk, passThrough_timer k hk]
      exact underMask_and_of_disjoint (BitVec.and_not_self _) _ _
    · rw [henable]
      exact underMask_and_of_disjoint (by rfl) _ _
  | nop | raised | result | decoded => rfl

/-- Settles O17: the commands but RESET and SET_RAW, then RESET, SET_RAW and GET_RAW. -/
theorem reservedBitsPassThrough : Obligations.ReservedBitsPassThrough := by
  refine ⟨fun i s t h => (exec_effect h).passThrough_eq, fun s t h a => ?_, fun s t h hok a => ?_,
    fun s t h a => ?_⟩
  · cases exec_effect h with
    | reset _ hr =>
      rw [withStatus_mem, withMem_mem, hr]
      exact BitVec.zero_and
    | raised he => cases he
    | result hi | field hi => cases hi
    | decoded hi => obtain ⟨b, hi | hi⟩ := hi <;> cases hi
  · cases exec_effect h with
    | setRaw _ hr => exact ⟨_, hr a, rfl⟩
    | raised he =>
      obtain rfl := List.mem_singleton.1 he
      cases hok
    | result hi | field hi => cases hi
    | decoded hi => obtain ⟨b, hi | hi⟩ := hi <;> cases hi
  · obtain ⟨m, hm, he⟩ := exec_getRaw s
    cases he.symm.trans h
    exact ⟨m.read a, by simp, hm.passThrough_eq a⟩

end Sys2Proof.Machine

/-! PROOFS. A command's answer depends on IN and RT below their lengths only; O19. -/

namespace Sys2Proof.Machine

/-- The state with other input ports. -/
def State.withPorts (s : State) (ip : Cells Byte) (rp : Cells Sample) : State :=
  { s with inPort := ip, rtPort := rp }

/-- An outcome with other input ports in its next state, if it has one. -/
def Result.withPorts (r : Result) (ip : Cells Byte) (rp : Cells Sample) : Result :=
  match r with
  | .next t => .next (t.withPorts ip rp)
  | .fault f => .fault f
  | .refused e => .refused e

section Ports
variable {s : State} {ip : Cells Byte} {rp : Cells Sample}

/-- A command that reads IN below IN_LEN, and from there on whose answer does not depend on the ports. -/
theorem withIn_withPorts (hin : ∀ k < s.inLen.toNat, (s.withPorts ip rp).inByte? k = s.inByte? k)
    {n : Nat} (hn : n ≤ s.inLen.toNat) {k k' : List Byte → Result}
    (hk : ∀ l, k' l = Result.withPorts (k l) ip rp) :
    withIn (s.withPorts ip rp) n k' = Result.withPorts (withIn s n k) ip rp := by
  have hread : readRange (s.withPorts ip rp).inByte? 0 n = readRange s.inByte? 0 n :=
    readRange_congr 0 n fun j _ hj => hin j (by omega)
  simp only [withIn, hread]
  cases readRange s.inByte? 0 n with
  | error j => rfl
  | ok l => exact hk l

/-- A decode, which reads RT below RT_LEN. -/
theorem decodeCommand_withPorts
    (hrt : ∀ k < s.rtLen.toNat, (s.withPorts ip rp).rtSample? k = s.rtSample? k)
    (p : Config.Params) (strict : Bool) (a : Byte) (b : Half) :
    decodeCommand p strict a b (s.withPorts ip rp) =
      Result.withPorts (decodeCommand p strict a b s) ip rp := by
  have hdecode : decodeBytes p (s.withPorts ip rp).rtSample? ((s.withPorts ip rp).decodeJob strict a b) =
      decodeBytes p s.rtSample? (s.decodeJob strict a b) :=
    decodeBytes_congr fun k hk => hrt k hk.bounds.2.2
  rw [decodeCommand, decodeCommand, hdecode]
  rcases decodeBytes p s.rtSample? (s.decodeJob strict a b) with (e | k) | bytes <;> rfl

/-- The ports above their lengths change nothing in a command's answer but themselves (R43, R44). -/
theorem exec_withPorts (hin : ∀ k < s.inLen.toNat, (s.withPorts ip rp).inByte? k = s.inByte? k)
    (hrt : ∀ k < s.rtLen.toNat, (s.withPorts ip rp).rtSample? k = s.rtSample? k) (i : Instr) :
    exec i (s.withPorts ip rp) = Result.withPorts (exec i s) ip rp := by
  cases i with
  | setRaw =>
    by_cases hl : s.inLen = 10
    · rw [exec_setRaw_of_ten hl, exec_setRaw_of_ten (s := s.withPorts ip rp) hl]
      exact withIn_withPorts hin (by rw [hl]; rfl) fun _ => rfl
    · rw [exec_setRaw_of_ne_ten hl, exec_setRaw_of_ne_ten (s := s.withPorts ip rp) hl]
      rfl
  | chkCalcIn =>
    by_cases hl : s.inLen = 0
    · rw [exec_chkCalcIn, exec_chkCalcIn, if_pos hl, if_pos (show (s.withPorts ip rp).inLen = 0 from hl)]
      rfl
    · rw [exec_chkCalcIn, exec_chkCalcIn, if_neg hl, if_neg (show (s.withPorts ip rp).inLen ≠ 0 from hl)]
      exact withIn_withPorts hin (Nat.sub_le _ _) fun _ => rfl
  | chkValidIn =>
    rw [exec_chkValidIn, exec_chkValidIn]
    exact withIn_withPorts hin le_rfl fun _ => rfl
  | decode a b => exact decodeCommand_withPorts hrt Config.chosen false a b
  | decodeStrict a b => exact decodeCommand_withPorts hrt Config.chosen true a b
  | nop | reset | getRaw | chkCalc | chkValid => rfl
  | setTemp | setMode | setFan | setPower | setWifi | setTurbo | setEcono | setLight | setSwingH
  | setOffTimer | send => rfl
  | getTemp | getMode | getFan | getPower | getWifi | getTurbo | getEcono | getLight | getSwingH => rfl

end Ports

/-- Settles O19: the second state is the first with other input ports. -/
theorem commandsSeePortsOnlyBelowTheirLength : Obligations.CommandsSeePortsOnlyBelowTheirLength := by
  intro i s s' hs hin hrt
  obtain ⟨ip, rp, rfl⟩ : ∃ ip rp, s' = s.withPorts ip rp := ⟨_, _, hs⟩
  rw [exec_withPorts hin hrt i]
  exact ⟨fun f h => by rw [h]; rfl, fun t h => by rw [h]; rfl⟩

end Sys2Proof.Machine

/-! PROOFS. What a step does with a command word, that a second recomputation of the checksum changes
nothing, and where a frame's pulses stand; O7, O24, O38. -/

namespace Sys2Proof.Machine

/-! ### A command word -/

theorem perform_command (w : CommandWord) (s : State) : perform (.command w) s = issue w s := rfl

/-- A legal word runs its command (R92). -/
theorem issue_of_decode_ok {w : CommandWord} {i : Instr} (h : decode w = .ok i) (s : State) :
    issue w s = exec i s := by
  rw [issue, h]

/-- An illegal word writes its completion code and nothing else (R86). -/
theorem issue_of_decode_error {w : CommandWord} {e : Reject} (h : decode w = .error e) (s : State) :
    issue w s = .next (s.withStatus .illegalCommand) := by
  rw [issue, h]
  rfl

/-- Settles O7: the step issues the word on the state without it. -/
theorem stepRunsTheDecodedCommand : Obligations.StepRunsTheDecodedCommand := by
  intro s w rest h
  rw [step_of_host h, perform_command]
  exact ⟨fun i hi => issue_of_decode_ok hi _, fun e he => issue_of_decode_error he _⟩

/-! ### Recomputing twice -/

theorem exec_getRaw_eq (s : State) : exec .getRaw s =
    .next (((s.withMem s.mem.recompute).withOutBytes s.mem.recompute.read).withStatus .ok) := rfl

theorem exec_send_eq (b : Half) (s : State) : exec (.send b) s =
    .next (((s.withMem s.mem.recompute).withRecord
      (sendRecord Config.chosen b s.mem.recompute.bytes)).withStatus .ok) := rfl

/-- A state whose checksum, snapshot and STATUS are those of a GET_RAW is left as it is by another. -/
theorem exec_getRaw_fixed {t : State} (hm : t.mem.recompute = t.mem)
    (ho : t.outBytes = Vector.ofFn fun i => some (t.mem.read i)) (hs : t.status = some 0) :
    exec .getRaw t = .next t := by
  rw [exec_getRaw_eq, hm]
  simp only [State.withMem, State.withOutBytes, State.withStatus, Completion.code, ← ho, ← hs]

/-- Settles O24: both commands recompute the checksum, and recomputing is idempotent. -/
theorem recomputingTwiceIsRecomputingOnce : Obligations.RecomputingTwiceIsRecomputingOnce := by
  refine fun s t => ⟨fun h => ?_, fun b c h => ⟨_, exec_send_eq c t, ?_⟩⟩
  · rw [exec_getRaw_eq, Host.Outcome.next.injEq] at h
    subst h
    exact exec_getRaw_fixed
      (by simp only [withStatus_mem, withOutBytes_mem, withMem_mem, recompute_recompute])
      (by simp only [withStatus_outBytes, withOutBytes_outBytes, withStatus_mem, withOutBytes_mem,
        withMem_mem]) rfl
  · rw [exec_send_eq, Host.Outcome.next.injEq] at h
    subst h
    simp only [withStatus_mem, withRecord_mem, withMem_mem, recompute_recompute]

/-! ### The layout of a frame -/

theorem frameEnd_of_footer {p : Config.Params} (h : p.footerMarkUs > 0) :
    frameEnd p = [⟨.mark, p.footerMarkUs⟩, ⟨.space, p.gapUs⟩] := by
  rw [frameEnd, if_pos h, List.singleton_append]

theorem frameEnd_of_no_footer {p : Config.Params} (h : p.footerMarkUs = 0) :
    frameEnd p = [⟨.space, p.gapUs⟩] := by
  rw [frameEnd, if_neg (by omega), List.nil_append]

/-- Settles O38: 160 pulses of cells, then the frame's end. -/
theorem frameIsEightyCellsFooterAndGap : Obligations.FrameIsEightyCellsFooterAndGap := by
  intro p bytes hlen
  have hend (k : Nat) : (frame p bytes)[160 + k]? = (frameEnd p)[k]? := by
    simpa only [hlen] using getElem?_frame_end p bytes k
  refine ⟨fun hf => ?_, fun hf => ?_, fun j hj => ?_⟩
  · rw [frameEnd_of_footer hf] at hend
    exact ⟨by rw [length_frame, hlen, Config.Params.footerLen, if_pos hf], hend 0, hend 1⟩
  · rw [frameEnd_of_no_footer hf] at hend
    exact ⟨by rw [length_frame, hlen, Config.Params.footerLen, if_neg (by omega)], hend 0⟩
  · have hb : j / 8 < bytes.length := by omega
    rw [List.getD_eq_getElem _ _ hb]
    exact ⟨getElem?_frame_cell p bytes j 0 hb (by decide), getElem?_frame_cell p bytes j 1 hb (by decide)⟩

end Sys2Proof.Machine

/-! PROOFS. The decoder inverts the encoder: the formats' must-be-zero fields, the words of the rows of
the opcode map, and the legal words; O1 to O6. -/

namespace Sys2Proof

open Sys2Proof.Machine

/-! ### The must-be-zero fields of a format -/

/-- Operand A must be 0 in this format (R82). -/
def Format.aMustBeZero : Format → Bool
  | .z | .b => true
  | .a | .ab => false

/-- Operand B must be 0 in this format (R82). -/
def Format.bMustBeZero : Format → Bool
  | .z | .a => true
  | .b | .ab => false

/-- Field A of the words of this format that carry this operand. -/
def Format.aOperand (f : Format) (a : Byte) : Byte := if f.aMustBeZero then 0 else a

/-- Field B of the words of this format that carry this operand. -/
def Format.bOperand (f : Format) (b : Half) : Half := if f.bMustBeZero then 0 else b

theorem Format.aOperand_eq_self_iff (f : Format) (a : Byte) :
    f.aOperand a = a ↔ (f.aMustBeZero = true → a = 0) := by
  rw [aOperand, ite_eq_right_iff, @eq_comm Byte 0]

theorem Format.bOperand_eq_self_iff (f : Format) (b : Half) :
    f.bOperand b = b ↔ (f.bMustBeZero = true → b = 0) := by
  rw [bOperand, ite_eq_right_iff, @eq_comm Half 0]

/-- A format admits two fields when its words hold them as they are. -/
theorem Format.admits_iff (f : Format) (a : Byte) (b : Half) :
    f.admits a b = true ↔ f.aOperand a = a ∧ f.bOperand b = b := by
  rw [aOperand_eq_self_iff, bOperand_eq_self_iff]
  cases f <;> simp [admits, aMustBeZero, bMustBeZero]

/-- Field A under a format's mask is zero exactly when the format's words hold it as it is. -/
theorem Format.and_aMask_eq_zero_iff (f : Format) (a : Byte) :
    a &&& (if f.aMustBeZero then 0xFF else 0) = 0 ↔ f.aOperand a = a := by
  rw [aOperand]
  split
  · rw [show a &&& 0xFF = a from BitVec.and_allOnes, eq_comm]
  · exact iff_of_true BitVec.and_zero rfl

/-- Field B under a format's mask is zero exactly when the format's words hold it as it is. -/
theorem Format.and_bMask_eq_zero_iff (f : Format) (b : Half) :
    b &&& (if f.bMustBeZero then 0xFFFF else 0) = 0 ↔ f.bOperand b = b := by
  rw [bOperand]
  split
  · rw [show b &&& 0xFFFF = b from BitVec.and_allOnes, eq_comm]
  · exact iff_of_true BitVec.and_zero rfl

/-! ### Words as packed fields -/

theorem pack_inj {op op' a a' : Byte} {b b' : Half} :
    pack op a b = pack op' a' b' ↔ op = op' ∧ a = a' ∧ b = b' := by
  refine ⟨fun h => ⟨?_, ?_, ?_⟩, fun ⟨hop, ha, hb⟩ => by rw [hop, ha, hb]⟩
  · simpa using congrArg opField h
  · simpa using congrArg aField h
  · simpa using congrArg bField h

theorem pack_eq_iff {op a : Byte} {b : Half} {w : CommandWord} :
    pack op a b = w ↔ op = opField w ∧ a = aField w ∧ b = bField w := by
  rw [← pack_inj, pack_fields]

theorem pack_and_pack (op op' a a' : Byte) (b b' : Half) :
    pack op a b &&& pack op' a' b' = pack (op &&& op') (a &&& a') (b &&& b') :=
  BitVec.and_append.trans (congrArg (· ++ _) BitVec.and_append)

theorem setWidth_eq_pack (op : Byte) : op.setWidth 32 = pack op 0 0 :=
  (BitVec.setWidth_eq_append (by decide)).trans rfl

/-- The mask covers OP and the fields that must be zero (R82). -/
theorem Format.mask_eq_pack (f : Format) : f.mask =
    pack 0xFF (if f.aMustBeZero then 0xFF else 0) (if f.bMustBeZero then 0xFFFF else 0) := by
  cases f <;> rfl

/-- A word has this OP and zeros under a format's mask exactly when it is the format's word of its own
fields. -/
theorem and_mask_eq_iff (w : CommandWord) (f : Format) (op : Byte) :
    w &&& f.mask = op.setWidth 32 ↔ pack op (f.aOperand (aField w)) (f.bOperand (bField w)) = w := by
  have hop : opField w &&& 0xFF = opField w := BitVec.and_allOnes
  conv_lhs => rw [← pack_fields w, f.mask_eq_pack, pack_and_pack, setWidth_eq_pack, pack_inj, hop]
  rw [f.and_aMask_eq_zero_iff, f.and_bMask_eq_zero_iff, pack_eq_iff, @eq_comm Byte op]

/-! ### The words of the rows -/

/-- The command that a row builds is encoded with the row's OP and the operands of its format. -/
theorem encode_build : ∀ r ∈ opcodeRows, ∀ (a : Byte) (b : Half),
    encode (r.build a b) = pack r.op (r.format.aOperand a) (r.format.bOperand b) := by
  rw [← List.forall_iff_forall_mem]
  and_intros <;> exact fun _ _ => rfl

/-- A row whose format admits the fields of its words encodes its command with these fields. -/
theorem encode_build_of_admits {r : Row} (hr : r ∈ opcodeRows) {a : Byte} {b : Half}
    (h : r.format.admits a b = true) : encode (r.build a b) = pack r.op a b := by
  obtain ⟨ha, hb⟩ := (r.format.admits_iff a b).1 h
  rw [encode_build r hr, ha, hb]

/-- A command that the decoder answers is built by a row with the word's OP and must-be-zero fields. -/
theorem exists_row_of_decode_ok {w : CommandWord} {i : Instr} (h : decode w = .ok i) :
    ∃ r ∈ opcodeRows, r.op = opField w ∧ r.format.admits (aField w) (bField w) = true ∧
      r.build (aField w) (bField w) = i := by
  rw [decode, decodeFields] at h
  split at h
  case h_1 => cases h
  case h_2 r hr =>
    split at h
    case isTrue ha =>
      have hop : (r.op == opField w) = true := List.find?_some (p := fun q : Row => q.op == opField w) hr
      exact ⟨r, List.mem_of_find?_eq_some hr, eq_of_beq hop, ha, Except.ok.inj h⟩
    case isFalse => cases h

/-- Every command is the decoder's answer to the fields of its word. -/
theorem exists_fields_of_command (i : Instr) :
    ∃ op a b, encode i = pack op a b ∧ decodeFields op a b = .ok i := by
  cases i <;> exact ⟨_, _, _, rfl, rfl⟩

theorem decode_encode (i : Instr) : decode (encode i) = .ok i := by
  obtain ⟨op, a, b, he, hd⟩ := exists_fields_of_command i
  rw [he, decode_pack, hd]

theorem encode_of_decode_ok {w : CommandWord} {i : Instr} (h : decode w = .ok i) : encode i = w := by
  obtain ⟨r, hr, hop, ha, rfl⟩ := exists_row_of_decode_ok h
  rw [encode_build_of_admits hr ha, hop, pack_fields]

theorem decode_eq_ok_iff {w : CommandWord} {i : Instr} : decode w = .ok i ↔ encode i = w :=
  ⟨encode_of_decode_ok, fun h => h ▸ decode_encode i⟩

/-- On a 32-bit word the table's decoder is the decoder. -/
theorem decodeTableWord_toNat (w : CommandWord) : decodeTableWord 32 w.toNat = (decode w).toOption := by
  rw [decodeTableWord, if_pos (le_refl 32), Nat.mod_eq_of_lt w.isLt, BitVec.ofNat_toNat,
    BitVec.setWidth_eq]

/-- Settles O1, from the fields of each command's word. -/
theorem decodeOfEncodeIsTheCommand : Obligations.DecodeOfEncodeIsTheCommand := by
  refine fun i => ⟨decode_encode i, ?_⟩
  rw [decodeTableWord_toNat, decode_encode]
  rfl

/-- Settles O2: the row that the decoder finds encodes its command with the word's own fields. -/
theorem decodedWordIsTheEncodingOfItsCommand : Obligations.DecodedWordIsTheEncodingOfItsCommand :=
  fun _ _ => encode_of_decode_ok

/-- Settles O3: both sides say that the word is the encoding of the row's command. -/
theorem wordIsACommandExactlyWhenItMatchesARow :
    Obligations.WordIsACommandExactlyWhenItMatchesARow := by
  refine ⟨rfl, rfl, rfl, rfl, fun w r hr => ?_⟩
  rw [and_mask_eq_iff, decode_eq_ok_iff, encode_build r hr]

/-! ### Legal words -/

/-- The words that decode are those with the OP of a row and the must-be-zero fields of its format. -/
theorem exists_decode_ok_iff (w : CommandWord) : (∃ i, decode w = .ok i) ↔
    ∃ r ∈ opcodeRows, r.op = opField w ∧ r.format.admits (aField w) (bField w) = true := by
  constructor
  · rintro ⟨i, hi⟩
    obtain ⟨r, hr, hop, ha, -⟩ := exists_row_of_decode_ok hi
    exact ⟨r, hr, hop, ha⟩
  · rintro ⟨r, hr, hop, ha⟩
    refine ⟨r.build (aField w) (bField w), decode_eq_ok_iff.2 ?_⟩
    rw [encode_build_of_admits hr ha, hop, pack_fields]

/-- The lists of `Format.opcodes` name the OPs of the rows (R84). -/
theorem opDefined_iff (f : Fields) : f.opDefined = true ↔ ∃ r ∈ opcodeRows, r.op = f.op := by
  have hlists : ∀ n, n ∈ Format.z.opcodes ++ Format.a.opcodes ++ Format.b.opcodes ++
      Format.ab.opcodes ↔ n ∈ opcodeRows.map fun r => r.op.toNat := by
    intro n
    refine ⟨?_, ?_⟩ <;> revert n <;> decide
  simp only [Fields.opDefined, List.contains_iff_mem, hlists, List.mem_map, BitVec.toNat_inj]

/-- The lists of `Format.opcodes` give each row's OP the must-be-zero fields of the row's format. -/
theorem contains_opcodes_of_row : ∀ r ∈ opcodeRows,
    (Format.z.opcodes ++ Format.b.opcodes).contains r.op.toNat = r.format.aMustBeZero ∧
    (Format.z.opcodes ++ Format.a.opcodes).contains r.op.toNat = r.format.bMustBeZero := by
  decide

/-- A word with the OP of a row is legal when the row's format admits its fields (R86). -/
theorem wellFormed_of_row {r : Row} (hr : r ∈ opcodeRows) (a : Byte) (b : Half) :
    (⟨r.op, a, b⟩ : Fields).wellFormed = r.format.admits a b := by
  have hdef : (⟨r.op, a, b⟩ : Fields).opDefined = true := (opDefined_iff _).2 ⟨r, hr, rfl⟩
  obtain ⟨ha, hb⟩ := contains_opcodes_of_row r hr
  rw [Fields.wellFormed, hdef, Fields.aZeroWhereNeeded, Fields.bZeroWhereNeeded, ha, hb]
  cases r.format <;> simp [Format.admits, Format.aMustBeZero, Format.bMustBeZero]

theorem opDefined_of_wellFormed {f : Fields} (h : f.wellFormed = true) : f.opDefined = true := by
  simp only [Fields.wellFormed, Bool.and_eq_true] at h
  obtain ⟨⟨hdef, -⟩, -⟩ := h
  exact hdef

/-- The legal words are those with the OP of a row and the must-be-zero fields of its format. -/
theorem wellFormed_iff (w : CommandWord) : CommandWord.wellFormed w = true ↔
    ∃ r ∈ opcodeRows, r.op = opField w ∧ r.format.admits (aField w) (bField w) = true := by
  have hw : CommandWord.wellFormed w = (⟨opField w, aField w, bField w⟩ : Fields).wellFormed := rfl
  constructor
  · intro h
    obtain ⟨r, hr, hop : r.op = opField w⟩ := (opDefined_iff _).1 (opDefined_of_wellFormed h)
    exact ⟨r, hr, hop, by rw [← wellFormed_of_row hr, hop, ← hw, h]⟩
  · rintro ⟨r, hr, hop, ha⟩
    rw [hw, ← hop, wellFormed_of_row hr, ha]

theorem exists_decode_ok_iff_wellFormed (w : CommandWord) :
    (∃ i, decode w = .ok i) ↔ CommandWord.wellFormed w = true :=
  (exists_decode_ok_iff w).trans (wellFormed_iff w).symm

/-- Settles O4: both sides say that a row has the word's OP and admits its fields. -/
theorem decoderRejectsExactlyTheIllegalWords : Obligations.DecoderRejectsExactlyTheIllegalWords :=
  exists_decode_ok_iff_wellFormed

/-! ### Illegal words -/

/-- The undefined opcodes are three ranges (R86). -/
theorem opDefined_eq_false_iff (f : Fields) : f.opDefined = false ↔
    (0x08 ≤ f.op.toNat ∧ f.op.toNat ≤ 0x0F) ∨ (0x23 ≤ f.op.toNat ∧ f.op.toNat ≤ 0x2F) ∨
      0x33 ≤ f.op.toNat := by
  simp only [Fields.opDefined, Format.opcodes, List.contains_eq_mem, decide_eq_false_iff_not,
    List.mem_append, List.mem_cons, List.not_mem_nil, or_false]
  omega

theorem aZeroWhereNeeded_eq_false_iff (f : Fields) : f.aZeroWhereNeeded = false ↔
    f.op.toNat ∈ Format.z.opcodes ++ Format.b.opcodes ∧ f.a ≠ 0 := by
  simp only [Fields.aZeroWhereNeeded, Bool.or_eq_false_iff, Bool.not_eq_false', List.contains_iff_mem,
    beq_eq_false_iff_ne]

theorem bZeroWhereNeeded_eq_false_iff (f : Fields) : f.bZeroWhereNeeded = false ↔
    f.op.toNat ∈ Format.z.opcodes ++ Format.a.opcodes ∧ f.b ≠ 0 := by
  simp only [Fields.bZeroWhereNeeded, Bool.or_eq_false_iff, Bool.not_eq_false', List.contains_iff_mem,
    beq_eq_false_iff_ne]

/-- The decoder rejects an ill-formed word. -/
theorem exists_decode_error_of_not_wellFormed {w : CommandWord} (h : CommandWord.wellFormed w = false) :
    ∃ e, decode w = .error e := by
  cases hd : decode w with
  | error e => exact ⟨e, rfl⟩
  | ok i =>
    rw [(exists_decode_ok_iff_wellFormed w).1 ⟨i, hd⟩] at h
    cases h

/-- Settles O5: the three tests of `wellFormed` one by one; an ill-formed word is rejected. -/
theorem illegalWordWritesOnlyIllegalCommand : Obligations.IllegalWordWritesOnlyIllegalCommand := by
  refine ⟨fun w => ?_, fun s w hw => ?_⟩
  · rw [CommandWord.wellFormed, Fields.wellFormed, Bool.and_eq_false_iff, Bool.and_eq_false_iff,
      opDefined_eq_false_iff, aZeroWhereNeeded_eq_false_iff, bZeroWhereNeeded_eq_false_iff, or_assoc]
    rfl
  · obtain ⟨e, he⟩ := exists_decode_error_of_not_wellFormed hw
    exact issue_of_decode_error he s

/-- Settles O6: the encoder gives each word of R91, and by `decode_eq_ok_iff` that says too what a
word decodes to. -/
theorem workedEncodingsDecode : Obligations.WorkedEncodingsDecode := by
  refine ⟨rfl, rfl, rfl, rfl, rfl, rfl, decode_eq_ok_iff.2 rfl, rfl, ?_⟩
  exact ⟨decode_eq_ok_iff.2 rfl, decode_eq_ok_iff.2 rfl, decode_eq_ok_iff.2 rfl⟩

end Sys2Proof

/-! PROOFS. The assembler: a line is its mnemonic and its operand texts, then a pseudo-instruction or an
opcode row; O49. -/

namespace Sys2Proof.Machine

/-- The text of a line before its comment, without the blanks at its ends (R88). -/
def lineCode (line : Text) : Text := Text.trim (line.takeWhile (· != ';'))

/-- The mnemonic of a line and its operand texts (R88). -/
def lineParts (line : Text) : Text × List Text :=
  let mnemonic := (lineCode line).takeWhile fun c => !c.isWhitespace
  (mnemonic, operandsOf ((lineCode line).drop mnemonic.length))

/-- A line is a pseudo-instruction if its parts are those of one (R90), else a command of an opcode row
(R88). -/
theorem assemble_of_lineParts {line mnemonic : Text} {operands : List Text}
    (hline : lineParts line = (mnemonic, operands)) (p : Config.Params) :
    assemble p line = (assemblePseudo mnemonic operands).or
      ((opcodeRows.find? fun r => r.mnemonic.toList == mnemonic).bind fun r => assembleRow p r operands) := by
  obtain ⟨rfl, rfl⟩ := Prod.mk.inj hline
  simp only [assemble, lineCode]
  split
  case h_1 i hi => rw [hi, Option.some_or]
  case h_2 hi => rw [hi, Option.none_or]

/-- A line whose parts are those of a pseudo-instruction is its expansion (R90). -/
theorem assemble_of_pseudo {line mnemonic : Text} {operands : List Text} {i : Instr}
    (hline : lineParts line = (mnemonic, operands))
    (hpseudo : assemblePseudo mnemonic operands = some i) (p : Config.Params) :
    assemble p line = some i := by
  rw [assemble_of_lineParts hline, hpseudo, Option.some_or]

/-- Any other line is the command of its mnemonic's row (R88, R89). -/
theorem assemble_of_row {line mnemonic : Text} {operands : List Text} {r : Row} {i : Instr}
    {p : Config.Params} (hline : lineParts line = (mnemonic, operands))
    (hpseudo : assemblePseudo mnemonic operands = none)
    (hrow : (opcodeRows.find? fun q => q.mnemonic.toList == mnemonic) = some r)
    (hi : assembleRow p r operands = some i) : assemble p line = some i := by
  rw [assemble_of_lineParts hline, hpseudo, Option.none_or, hrow, Option.bind_some, hi]

theorem operandText_setMode_cool (p : Config.Params) :
    operandText p "SET_MODE" "COOL".toList = some (p.modeCool.setWidth 8) := by
  simp [operandText, symbols]

theorem operandText_setFan_auto (p : Config.Params) :
    operandText p "SET_FAN" "AUTO".toList = some (p.fanAuto.setWidth 8) := by
  simp [operandText, symbols]

/-- Settles O49: five lines with the mnemonic of a row and seven pseudo-instructions, cut into their
parts. -/
theorem assemblerExpandsSymbolsAndPseudos : Obligations.AssemblerExpandsSymbolsAndPseudos := by
  intro p
  refine ⟨?_, ?_, ?_, ?_, ?_, ?_, ?_, ?_, ?_, ?_, ?_, ?_⟩
  · exact assemble_of_row (mnemonic := "SET_TEMP".toList) (operands := ["26".toList]) rfl rfl rfl rfl
  · exact assemble_of_row (mnemonic := "DECODE".toList) (operands := ["80".toList, "1".toList])
      rfl rfl rfl rfl
  · exact assemble_of_row (mnemonic := "SET_MODE".toList) (operands := ["COOL".toList]) rfl rfl rfl
      (congrArg (Option.map _) (operandText_setMode_cool p))
  · exact assemble_of_row (mnemonic := "SET_FAN".toList) (operands := ["AUTO".toList]) rfl rfl rfl
      (congrArg (Option.map _) (operandText_setFan_auto p))
  · exact assemble_of_row (mnemonic := "SET_LIGHT".toList) (operands := ["ON".toList]) rfl rfl rfl rfl
  · exact assemble_of_pseudo (mnemonic := "SEND".toList) (operands := []) rfl rfl p
  · exact assemble_of_pseudo (mnemonic := "DECODE".toList) (operands := ["1".toList]) rfl rfl p
  · exact assemble_of_pseudo (mnemonic := "DECODE_STRICT".toList) (operands := ["0x1".toList]) rfl rfl p
  · exact assemble_of_pseudo (mnemonic := "POWER_ON".toList) (operands := []) rfl rfl p
  · exact assemble_of_pseudo (mnemonic := "POWER_OFF".toList) (operands := []) rfl rfl p
  · exact assemble_of_pseudo (mnemonic := "DISABLE_OFF_TIMER".toList) (operands := []) rfl rfl p
  · exact assemble_of_pseudo (mnemonic := "FIX_CHECKSUM".toList) (operands := []) rfl rfl p

end Sys2Proof.Machine

/-! PROOFS. The state-buffer commands, with the word of a format Z command, the number that the
checksum of the state is, and what a command that reads IN gets; O20 to O23. -/

namespace Sys2Proof.Machine

open Sys2Proof.Claim

/-- A row of format Z gives its command where A and B are zero. -/
theorem encodedZ_of_row {op : Byte} {name : String} {i : Instr}
    (hr : opcodeRows.find? (fun q => q.op == op) = some ⟨name, op, .z, fun _ _ => i⟩) :
    EncodedZ op i := by
  intro a b s
  simp [issue_pack hr, Format.admits]

/-! ### The checksum of the state as a number -/

theorem byteSum_payload (m : Memory) : byteSum m.payload = payloadSum m := by
  rw [byteSum, Memory.payload, List.map_ofFn, List.sum_ofFn, Fin.sum_univ_castSucc,
    Fin.sum_univ_eight]
  rfl

/-- `ck(STATE)` complements the sum of bytes 0 to 8 (R120). -/
theorem toNat_ck (m : Memory) : m.ck.toNat = 255 - payloadSum m % 256 := by
  rw [ck_eq, toNat_payloadChecksum, ← byteSum_payload]
  rfl

/-- The payload sum of a zero state. -/
theorem payloadSum_of_zero {m : Memory} (h : ∀ a, m.read a = 0x00) : payloadSum m = 0 := by
  simp only [payloadSum, h]
  rfl

/-- A zero state has checksum 255, so its byte 9 is not valid (R101). -/
theorem read_nine_ne_ck_of_zero {m : Memory} (h : ∀ a, m.read a = 0x00) : m.read 9 ≠ m.ck := by
  intro he
  have hck := toNat_ck m
  rw [payloadSum_of_zero h, ← he, h] at hck
  exact absurd hck (by decide)

theorem exec_chkValid_eq (s : State) : exec .chkValid s = .next { s with
    result := some (truth (s.mem.read 9 == s.mem.ck)), status := some 0 } := rfl

/-! ### What a command that reads IN gets -/

theorem withIn_ofFn {s : State} {n : Nat} {f : Fin n → Byte} {k : List Byte → Result}
    (h : ∀ i : Fin n, s.inByte? i.val = some (f i)) : withIn s n k = k (List.ofFn f) := by
  have hw : withIn s (List.ofFn f).length k = k (List.ofFn f) := withIn_of_forall fun j hj => by
    rw [List.getElem_ofFn]
    exact h ⟨j, by simpa using hj⟩
  rwa [List.length_ofFn] at hw

/-- A command that reads IN stops where one of those bytes was never written (R49). -/
theorem withIn_of_unwritten {s : State} {n i : Nat} {k : List Byte → Result} (hi : i < n)
    (hn : s.inByte? i = none) : ∃ j, withIn s n k = unwritten (.inByte j) := by
  rcases withIn_cases s n k with ⟨j, -, -, he⟩ | ⟨l, rfl, hl, -⟩
  · exact ⟨j, he⟩
  · rw [hl i hi] at hn
    cases hn

/-! ### The state-buffer commands -/

theorem finishMem_eq (m : Memory) (s : State) :
    finishMem m s = .next { s with mem := m, status := some 0 } := rfl

theorem exec_reset_eq (s : State) : exec .reset s = finishMem (Memory.ofFn fun _ => 0x00) s := rfl

/-- Settles O20: NOP is `finish` alone. -/
theorem nopOnlyReportsSuccess : Obligations.NopOnlyReportsSuccess :=
  ⟨encodedZ_of_row (name := "NOP") rfl, fun _ => rfl⟩

/-- Settles O21: the new bytes all read 0, and the checksum of nine zero bytes is not 0. -/
theorem resetCommandZeroesOnlyTheStateBuffer : Obligations.ResetCommandZeroesOnlyTheStateBuffer := by
  refine ⟨encodedZ_of_row (name := "RESET") rfl, fun s =>
    ⟨Memory.ofFn fun _ => 0x00, by rw [exec_reset_eq, finishMem_eq], Memory.read_ofFn _, fun t h => ?_⟩⟩
  have hmem : t.mem = Memory.ofFn fun _ => 0x00 := by
    rw [exec_reset_eq, finishMem_next] at h
    rw [← h, withStatus_mem, withMem_mem]
  have hne : t.mem.read 9 ≠ t.mem.ck :=
    hmem ▸ read_nine_ne_ck_of_zero (Memory.read_ofFn _)
  rw [exec_chkValid_eq, beq_eq_false_iff_ne.2 hne]
  rfl

/-- Settles O22: the length decides whether IN is read, and each of its ten bytes whether the read
ends. -/
theorem setRawCopiesExactlyTenBytes : Obligations.SetRawCopiesExactlyTenBytes := by
  refine ⟨encodedZ_of_row (name := "SET_RAW") rfl, fun s h => ?_, fun s f h hf => ?_,
    fun s i h hi hn => ?_⟩
  · rw [exec_setRaw_of_ne_ten h]
    rfl
  · refine ⟨_, by rw [exec_setRaw_of_ten h, withIn_ofFn hf, finishMem_eq], fun a => ?_⟩
    rw [Memory.read_ofFn, List.getD_eq_getElem _ _ (by simp), List.getElem_ofFn]
  · obtain ⟨j, hj⟩ := withIn_of_unwritten (n := 10) hi hn
    exact ⟨_, by rw [exec_setRaw_of_ten h, hj, unwritten]⟩

/-- Settles O23: the snapshot is of the recomputed state, and a second GET_RAW is O24's. -/
theorem getRawRecomputesThenSnapshots : Obligations.GetRawRecomputesThenSnapshots := by
  refine ⟨encodedZ_of_row (name := "GET_RAW") rfl, fun s => ?_⟩
  obtain ⟨m, hm, hexec⟩ := exec_getRaw s
  exact ⟨m, hexec, hm.keep, by rw [hm.nine, toNat_ck], hm.valid,
    fun t => (recomputingTwiceIsRecomputingOnce s t).1⟩

end Sys2Proof.Machine

/-! PROOFS. The checksum functions as numbers, what a test of two bytes answers, and what a command gets
of an IN written in full; O25 to O29. -/

namespace Sys2Proof.Machine

open Sys2Proof.Claim

/-! ### The checksum functions -/

/-- The checksum complements the sum of the payload (R120). -/
theorem toNat_payloadChecksum_eq (l : List Byte) :
    (payloadChecksum l).toNat = 255 - byteSum l % 256 := toNat_payloadChecksum l

/-- The state is valid exactly when byte 9 is its checksum (R127). -/
theorem validChecksum_bytes_iff (m : Memory) : validChecksum m.bytes = true ↔ m.read 9 = m.ck := by
  rw [bytes_eq_payload, validChecksum_concat, ck_eq, beq_iff_eq]

/-- Settles O25: a list is empty or a payload and a last byte, and STATE is the payload of bytes 0 to 8
and byte 9. -/
theorem checksumComplementsThePayloadSum : Obligations.ChecksumComplementsThePayloadSum := by
  refine ⟨calcChecksum_nil, validChecksum_nil, fun payload v w => ⟨?_, ?_, ?_⟩,
    fun m => ⟨rfl, toNat_ck m, validChecksum_bytes_iff m⟩⟩
  · rw [calcChecksum_concat, toNat_payloadChecksum_eq]
  · rw [calcChecksum_concat, calcChecksum_concat]
  · rw [validChecksum_concat, calcChecksum_concat, beq_iff_eq]

/-! ### CHK_CALC and CHK_VALID -/

theorem finishWith_eq (v : Half) (s : State) :
    finishWith v s = .next { s with result := some v, status := some 0 } := rfl

theorem exec_chkCalc (s : State) : exec .chkCalc s = finishWith (zext16 s.mem.ck) s := rfl

/-- The test of two bytes compares their numbers. -/
theorem truth_beq (v w : Byte) : truth (v == w) = if v.toNat = w.toNat then 1 else 0 := by
  simp only [truth, beq_iff_eq, BitVec.toNat_inj]

/-- GET_RAW and SEND leave a state whose byte 9 is its checksum (R103, R121). -/
theorem read_nine_of_recomputing {i : Instr} {s t : State} (hi : i = .getRaw ∨ ∃ b, i = .send b)
    (h : exec i s = .next t) : t.mem.read 9 = t.mem.ck := by
  rcases hi with rfl | ⟨b, rfl⟩
  · obtain ⟨m, hm, hexec⟩ := exec_getRaw s
    cases hexec.symm.trans h
    exact (validChecksum_bytes_iff m).1 hm.valid
  · obtain ⟨m, hm, hexec⟩ := exec_send b s
    cases hexec.symm.trans h
    exact (validChecksum_bytes_iff m).1 hm.valid

/-- Settles O26: the zero-extended checksum is the same number. -/
theorem chkCalcReturnsTheStateChecksum : Obligations.ChkCalcReturnsTheStateChecksum :=
  ⟨encodedZ_of_row (name := "CHK_CALC") rfl, fun s =>
    ⟨zext16 s.mem.ck, by rw [exec_chkCalc, finishWith_eq], by rw [toNat_zext16, toNat_ck]⟩⟩

/-- Settles O27: the test is of byte 9 with the checksum, and GET_RAW and SEND make them equal. -/
theorem chkValidComparesByteNine : Obligations.ChkValidComparesByteNine := by
  refine ⟨encodedZ_of_row (name := "CHK_VALID") rfl, fun s => ?_, fun i s t hi h => ?_⟩
  · rw [exec_chkValid_eq, truth_beq, toNat_ck]
  · rw [exec_chkValid_eq, truth_beq, if_pos (congrArg BitVec.toNat (read_nine_of_recomputing hi h))]

/-! ### CHK_CALC_IN and CHK_VALID_IN -/

/-- A command that reads IN gets the list that the host wrote there. -/
theorem withIn_of_getElem? {s : State} {n : Nat} {l : List Byte} {k : List Byte → Result}
    (hn : l.length = n) (h : ∀ i < l.length, s.inByte? i = l[i]?) : withIn s n k = k l := by
  subst hn
  exact withIn_of_forall fun j hj => by rw [h j hj, List.getElem?_eq_getElem hj]

/-- IN holds a list and a byte after it. -/
theorem inByte?_concat {s : State} {l : List Byte} {v : Byte} (h : ∀ i < l.length, s.inByte? i = l[i]?)
    (hv : s.inByte? l.length = some v) : ∀ i < (l ++ [v]).length, s.inByte? i = (l ++ [v])[i]? := by
  intro i hi
  rw [List.length_append, List.length_singleton] at hi
  rcases Nat.lt_succ_iff_lt_or_eq.1 hi with hlt | rfl
  · rw [List.getElem?_append_left hlt, h i hlt]
  · rw [List.getElem?_concat_length, hv]

/-- CHK_CALC_IN reads IN where its length is not 0 (R124). -/
theorem exec_chkCalcIn_of_ne_zero {s : State} (h : s.inLen ≠ 0) : exec .chkCalcIn s =
    withIn s (s.inLen.toNat - 1) fun l => finishWith (zext16 (payloadChecksum l)) s := by
  rw [exec_chkCalcIn, if_neg h]

/-- Settles O28: by whether IN_LEN is 0, then by whether the payload was written. -/
theorem chkCalcInChecksTheInputPayload : Obligations.ChkCalcInChecksTheInputPayload := by
  refine ⟨encodedZ_of_row (name := "CHK_CALC_IN") rfl, fun s payload hlen hin => ?_,
    fun s i hi hn => ?_⟩
  · by_cases h0 : s.inLen = 0
    · exact ⟨0, by rw [exec_chkCalcIn, if_pos h0, finishWith_eq], by rw [if_pos h0]; rfl⟩
    · exact ⟨zext16 (payloadChecksum payload),
        by rw [exec_chkCalcIn_of_ne_zero h0, withIn_of_getElem? hlen hin, finishWith_eq],
        by rw [if_neg h0, toNat_zext16, toNat_payloadChecksum_eq]⟩
  · have h0 : s.inLen ≠ 0 := fun h => by simp [h] at hi
    obtain ⟨j, hj⟩ := withIn_of_unwritten (n := s.inLen.toNat - 1) (by omega) hn
    exact ⟨_, by rw [exec_chkCalcIn_of_ne_zero h0, hj, unwritten]⟩

/-- Settles O29: no byte, a payload and a last byte, or a byte that was never written. -/
theorem chkValidInComparesTheLastInputByte : Obligations.ChkValidInComparesTheLastInputByte := by
  refine ⟨encodedZ_of_row (name := "CHK_VALID_IN") rfl, fun s h0 => ?_,
    fun s payload last hlen hin hlast => ?_, fun s i hi hn => ?_⟩
  · rw [exec_chkValidIn, withIn_of_getElem? (l := []) (by rw [h0]; rfl) (fun _ hi => nomatch hi),
      finishWith_eq, validChecksum_nil]
    rfl
  · rw [exec_chkValidIn, withIn_of_getElem? (by simp [hlen]) (inByte?_concat hin hlast), finishWith_eq,
      validChecksum_concat, truth_beq, toNat_payloadChecksum_eq]
  · obtain ⟨j, hj⟩ := withIn_of_unwritten hi hn
    exact ⟨_, by rw [exec_chkValidIn, hj, unwritten]⟩

end Sys2Proof.Machine

/-! PROOFS. The numbers and the bits of a field that is written or read, with the word of a format B
command; after them the field-access commands, O30, O31 and O33 to O37. -/

namespace Sys2Proof.Machine

open Sys2Proof.Claim

/-- A row of format B gives its command where A is zero. -/
theorem encodedB_of_row {op : Byte} {name : String} {i : Half → Instr}
    (hr : opcodeRows.find? (fun q => q.op == op) = some ⟨name, op, .b, fun _ b => i b⟩) :
    EncodedB op i := by
  intro a b s
  simp [issue_pack hr, Format.admits]

/-! ### A field that is written -/

/-- The number below a field is kept when the field is written. -/
theorem Place.insert_below {p : Place} (hp : p.lo + p.width ≤ 8) (v b : Byte) :
    (p.insert v b).toNat % 2 ^ p.lo = b.toNat % 2 ^ p.lo := by
  refine Nat.eq_of_testBit_eq fun k => ?_
  simp only [Nat.testBit_mod_two_pow, BitVec.testBit_toNat]
  by_cases hk : k < p.lo
  · rw [p.getLsbD_insert v b (by omega), if_neg (by omega)]
  · simp only [hk, decide_false, Bool.false_and]

/-- The number below a field of the state buffer is kept when the field is written. -/
theorem setField_below (m : Memory) (f : BitField) (v : Byte) :
    ((m.setField f v).read f.place.byte).toNat % 2 ^ f.place.lo =
      (m.read f.place.byte).toNat % 2 ^ f.place.lo := by
  rw [read_setField_self, Place.insert_below f.place_fits]

/-- A bit of a byte after a field of one bit is written into it. -/
theorem Place.getLsbD_insert_bit {p : Place} (hw : p.width = 1) (hp : p.lo + p.width ≤ 8) (v b : Byte)
    (k : Nat) : (p.insert v b).getLsbD k = if k = p.lo then v.getLsbD 0 else b.getLsbD k := by
  rcases Nat.lt_or_ge k 8 with hk | hk
  · rw [p.getLsbD_insert v b hk]
    by_cases he : k = p.lo
    · rw [if_pos (by omega), if_pos he, he, Nat.sub_self]
    · rw [if_neg (by omega), if_neg he]
  · rw [if_neg (by omega), BitVec.getLsbD_of_ge _ _ hk, BitVec.getLsbD_of_ge _ _ hk]

/-! ### A field that is read -/

/-- The number in a field that is read. -/
theorem Place.toNat_extract {p : Place} (hp : p.lo + p.width ≤ 8) (b : Byte) :
    (p.extract b).toNat = b.toNat / 2 ^ p.lo % 2 ^ p.width := by
  have hpow : 2 ^ p.width ≤ 2 ^ 8 := Nat.pow_le_pow_right (by decide) (by omega)
  have hmask : 2 ^ p.width - 1 < 2 ^ 8 := by omega
  rw [Place.extract, BitVec.toNat_and, BitVec.toNat_ushiftRight, BitVec.toNat_ofNat,
    Nat.mod_eq_of_lt hmask, Nat.and_two_pow_sub_one_eq_mod, Nat.shiftRight_eq_div_pow]

theorem toNat_field (m : Memory) (f : BitField) : (m.field f).toNat =
    (m.read f.place.byte).toNat / 2 ^ f.place.lo % 2 ^ f.place.width :=
  Place.toNat_extract f.place_fits _

/-- RESULT for a field of one bit is that bit (R147). -/
theorem zext16_field_of_bit (m : Memory) {f : BitField} (hw : f.place.width = 1) :
    zext16 (m.field f) = if (m.read f.place.byte).getLsbD f.place.lo then 1 else 0 := by
  refine BitVec.eq_of_toNat_eq ?_
  rw [toNat_zext16, toNat_field, hw, pow_one, ← BitVec.testBit_toNat, Nat.testBit_eq_decide_div_mod_eq]
  rcases Nat.mod_two_eq_zero_or_one ((m.read f.place.byte).toNat / 2 ^ f.place.lo) with h | h <;>
    rw [h] <;> rfl

/-- The next state of a field getter. -/
theorem getter_eq (f : BitField) (s : State) :
    getter f s = .next { s with result := some (zext16 (s.mem.field f)), status := some 0 } := rfl

/-! ### SET_TEMP and GET_TEMP -/

theorem exec_setTemp (a : Byte) (s : State) : exec (.setTemp a) s = setter .temp (tempCode a) s := rfl

theorem exec_getTemp (s : State) :
    exec .getTemp s = finishWith (zext16 (s.mem.field .temp) + 16) s := rfl

/-- The clamped temperature minus 16, by cases (R140). -/
theorem toNat_tempCode (a : Byte) : (tempCode a).toNat =
    if a.toNat < 16 then 0 else if 30 < a.toNat then 14 else a.toNat - 16 := by
  rw [tempCode, BitVec.toNat_ofNat, clamp, Config.tempMin, Config.tempMax]
  split <;> [skip; split] <;> omega

/-- What SET_TEMP stores fits the four bits of the field. -/
theorem toNat_tempCode_lt (a : Byte) : (tempCode a).toNat < 16 := by
  rw [toNat_tempCode]
  split <;> [skip; split] <;> omega

/-- What GET_TEMP returns: the four bits of the field, plus 16 without a carry out (R141). -/
theorem toNat_field_temp_add (m : Memory) :
    (zext16 (m.field .temp) + 16).toNat = (m.read 3).toNat % 16 + 16 := by
  have hfield : (m.field .temp).toNat = (m.read 3).toNat % 16 := by
    simpa only [BitField.place, pow_zero, Nat.div_one, Nat.reducePow] using toNat_field m .temp
  rw [BitVec.toNat_add, toNat_zext16, hfield]
  exact Nat.mod_eq_of_lt (show (m.read 3).toNat % 16 + 16 < 2 ^ 16 by omega)

/-- Settles O30: the field `temp` is bits 3:0 of byte 3, and what `tempCode` gives fits it. -/
theorem setTempStoresTheClampedTemperature : Obligations.SetTempStoresTheClampedTemperature := by
  refine ⟨encodedA_of_row (name := "SET_TEMP") rfl, fun a s =>
    ⟨s.mem.setField .temp (tempCode a), ?_, ?_, ?_, fun x hx => ?_⟩⟩
  · rw [exec_setTemp, setter_eq]
  · have hfield := setField_field s.mem .temp (tempCode a)
    simp only [BitField.place, Nat.reducePow, Nat.div_one] at hfield
    rw [hfield, Nat.mod_eq_of_lt (toNat_tempCode_lt a), toNat_tempCode]
  · exact setField_above s.mem .temp (tempCode a)
  · exact read_setField_of_ne s.mem _ hx

/-- Settles O31: the field as it is stored, and after SET_TEMP as O30 says it was stored. -/
theorem getTempReturnsStoredPlusSixteen : Obligations.GetTempReturnsStoredPlusSixteen := by
  have hget (s : State) : ∃ v : Half,
      exec .getTemp s = .next { s with result := some v, status := some 0 } ∧
        v.toNat = (s.mem.read 3).toNat % 16 + 16 :=
    ⟨_, by rw [exec_getTemp, finishWith_eq], toNat_field_temp_add s.mem⟩
  refine ⟨encodedZ_of_row (name := "GET_TEMP") rfl, hget, fun a s t h => ?_⟩
  obtain ⟨m, hset, hstored, -, -⟩ := setTempStoresTheClampedTemperature.2 a s
  cases hset.symm.trans h
  obtain ⟨v, hexec, hv⟩ := hget { s with mem := m, status := some 0 }
  refine ⟨v, hexec, ?_⟩
  rw [hv, hstored]
  split <;> [skip; split] <;> omega

/-! ### SET_FAN, and the getters of MODE and FAN -/

theorem exec_setFan (a : Byte) (s : State) :
    exec (.setFan a) s = setter .fanSpeed (fanCode Config.chosen a) s := rfl

theorem exec_getMode (s : State) : exec .getMode s = getter .mode s := rfl

theorem exec_getFan (s : State) : exec .getFan s = getter .fanSpeed s := rfl

/-- A 3-bit code as a byte has the code's number. -/
theorem toNat_fanCode (p : Config.Params) (a : Byte) : (fanCode p a).toNat =
    if a.toNat = p.fanLow.toNat ∨ a.toNat = p.fanMed.toNat ∨
      a.toNat = p.fanHigh.toNat ∨ a.toNat = p.fanAuto.toNat
    then a.toNat else p.fanAuto.toNat := by
  have hw (c : BitVec 3) : (c.setWidth 8).toNat = c.toNat := BitVec.toNat_setWidth_of_le (by decide)
  simp only [fanCode, List.map_cons, List.map_nil, List.mem_cons, List.not_mem_nil, or_false,
    ← BitVec.toNat_inj, hw, apply_ite BitVec.toNat]

/-- What SET_FAN stores fits the three bits of the field. -/
theorem toNat_fanCode_lt (p : Config.Params) (a : Byte) : (fanCode p a).toNat < 8 := by
  have h1 := p.fanLow.isLt
  have h2 := p.fanMed.isLt
  have h3 := p.fanHigh.isLt
  have h4 := p.fanAuto.isLt
  rw [toNat_fanCode]
  split <;> omega

/-- The top three bits of a byte are all of what stands from bit 5 on. -/
theorem toNat_div_32_mod_8 (b : Byte) : b.toNat / 32 % 8 = b.toNat / 32 :=
  Nat.mod_eq_of_lt (by have := b.isLt; omega)

/-- Settles O33: the field `fanSpeed` is bits 7:5 of byte 1, and what `fanCode` gives fits it. -/
theorem setFanStoresACodeOrAuto : Obligations.SetFanStoresACodeOrAuto := by
  refine ⟨encodedA_of_row (name := "SET_FAN") rfl, fun a s =>
    ⟨s.mem.setField .fanSpeed (fanCode Config.chosen a), ?_, ?_, ?_, fun x hx => ?_⟩⟩
  · rw [exec_setFan, setter_eq]
  · have hfield := setField_field s.mem .fanSpeed (fanCode Config.chosen a)
    simp only [BitField.place, Nat.reducePow, toNat_div_32_mod_8] at hfield
    rw [hfield, Nat.mod_eq_of_lt (toNat_fanCode_lt _ a), toNat_fanCode]
  · exact setField_below s.mem .fanSpeed (fanCode Config.chosen a)
  · exact read_setField_of_ne s.mem _ hx

/-- Settles O34: both are getters of one field of byte 1. -/
theorem getModeAndGetFanReturnTheFieldAsStored : Obligations.GetModeAndGetFanReturnTheFieldAsStored := by
  refine ⟨encodedZ_of_row (name := "GET_MODE") rfl, encodedZ_of_row (name := "GET_FAN") rfl, fun s =>
    ⟨zext16 (s.mem.field .mode), zext16 (s.mem.field .fanSpeed), ?_, ?_, ?_, ?_⟩⟩
  · rw [exec_getMode, getter_eq]
  · rw [toNat_zext16, toNat_field]
    simp only [BitField.place, pow_zero, Nat.div_one, Nat.reducePow]
  · rw [exec_getFan, getter_eq]
  · rw [toNat_zext16, toNat_field]
    exact toNat_div_32_mod_8 _

/-! ### The toggles -/

/-- Bit 0 of a 1 that is stored unless a condition holds. -/
theorem getLsbD_zero_ite (c : Prop) [Decidable c] :
    (if c then 0 else 1 : Byte).getLsbD 0 = decide (¬ c) := by
  by_cases h : c
  · rw [if_pos h, decide_eq_false (not_not_intro h)]
    rfl
  · rw [if_neg h, decide_eq_true h]
    rfl

theorem getLsbD_boolBit (a : Byte) : (boolBit a).getLsbD 0 = decide (a ≠ 0) := by
  rw [boolBit, getLsbD_zero_ite]

/-- A row whose command follows the toggle setter template for a field of one bit (R146). -/
theorem setsToggle_of_row {op : Byte} {name : String} {i : Byte → Instr} {f : BitField}
    (hr : opcodeRows.find? (fun q => q.op == op) = some ⟨name, op, .a, fun a _ => i a⟩)
    (hexec : ∀ a s, exec (i a) s = toggleSetter f a s) (hw : f.place.width = 1) :
    SetsToggle op i f.place.byte f.place.lo := by
  refine ⟨encodedA_of_row hr, fun a s =>
    ⟨s.mem.setField f (boolBit a), by rw [hexec, toggleSetter, setter_eq], fun x k => ?_⟩⟩
  by_cases hx : x = f.place.byte
  · rw [hx, read_setField_self, Place.getLsbD_insert_bit hw f.place_fits, getLsbD_boolBit]
    simp only [true_and]
  · rw [read_setField_of_ne _ _ hx, if_neg fun h => hx h.1]

/-- A row whose command is the getter of a field of one bit (R147). -/
theorem getsToggle_of_row {op : Byte} {name : String} {i : Instr} {f : BitField}
    (hr : opcodeRows.find? (fun q => q.op == op) = some ⟨name, op, .z, fun _ _ => i⟩)
    (hexec : ∀ s, exec i s = getter f s) (hw : f.place.width = 1) :
    GetsToggle op i f.place.byte f.place.lo :=
  ⟨encodedZ_of_row hr, fun s => by rw [hexec, getter_eq, zext16_field_of_bit s.mem hw]⟩

/-- Settles O35: each command is the template for its field, at the place of R31. -/
theorem toggleSettersStoreOneBit : Obligations.ToggleSettersStoreOneBit :=
  ⟨setsToggle_of_row (name := "SET_POWER") (f := .power) rfl (fun _ _ => rfl) rfl,
    setsToggle_of_row (name := "SET_WIFI") (f := .wifi) rfl (fun _ _ => rfl) rfl,
    setsToggle_of_row (name := "SET_TURBO") (f := .turbo) rfl (fun _ _ => rfl) rfl,
    setsToggle_of_row (name := "SET_ECONO") (f := .econo) rfl (fun _ _ => rfl) rfl,
    setsToggle_of_row (name := "SET_LIGHT") (f := .light) rfl (fun _ _ => rfl) rfl,
    setsToggle_of_row (name := "SET_SWINGH") (f := .swingH) rfl (fun _ _ => rfl) rfl⟩

/-- Settles O36: each command is the getter of its field, at the place of R31. -/
theorem toggleGettersReturnOneBit : Obligations.ToggleGettersReturnOneBit :=
  ⟨getsToggle_of_row (name := "GET_POWER") (f := .power) rfl (fun _ => rfl) rfl,
    getsToggle_of_row (name := "GET_WIFI") (f := .wifi) rfl (fun _ => rfl) rfl,
    getsToggle_of_row (name := "GET_TURBO") (f := .turbo) rfl (fun _ => rfl) rfl,
    getsToggle_of_row (name := "GET_ECONO") (f := .econo) rfl (fun _ => rfl) rfl,
    getsToggle_of_row (name := "GET_LIGHT") (f := .light) rfl (fun _ => rfl) rfl,
    getsToggle_of_row (name := "GET_SWINGH") (f := .swingH) rfl (fun _ => rfl) rfl⟩

/-! ### SET_OFF_TIMER -/

theorem exec_setOffTimer (b : Half) (s : State) :
    exec (.setOffTimer b) s = finishMem (offTimerMem Config.chosen b s.mem) s := rfl

/-- Byte 8 after SET_OFF_TIMER, bit by bit: OffTimerEnable is bit 6 (R160). -/
theorem getLsbD_offTimerMem_enable (p : Config.Params) (b : Half) (m : Memory) (k : Nat) :
    ((offTimerMem p b m).read 8).getLsbD k =
      if k = 6 then decide (b ≠ 0) else (m.read 8).getLsbD k := by
  rw [offTimerMem_enable, Place.getLsbD_insert_bit rfl BitField.offTimerEnable.place_fits,
    getLsbD_zero_ite]
  rfl

/-- Settles O37: bytes 4 to 7 under the mask, the enable bit in byte 8, and the bytes in neither. -/
theorem setOffTimerWritesTheMaskedBitsAndTheEnable :
    Obligations.SetOffTimerWritesTheMaskedBitsAndTheEnable :=
  ⟨encodedB_of_row (name := "SET_OFF_TIMER") rfl, fun b s =>
    ⟨offTimerMem Config.chosen b s.mem, by rw [exec_setOffTimer, finishMem_eq],
      fun k a ha => by rw [offTimerMem_mask _ _ _ k a ha, underMask],
      getLsbD_offTimerMem_enable _ b s.mem, offTimerMem_keep _ b s.mem⟩⟩

end Sys2Proof.Machine

/-! PROOFS. The duration of a frame, the word and the record of SEND, and the pulses that the arguments of
the transmission primitive ask for; O39 to O41. -/

namespace Sys2Proof.Machine

open Sys2Proof.Claim

/-! ### The duration of a frame -/

theorem duration_append (l m : List Pulse) : duration (l ++ m) = duration l + duration m := by
  rw [duration, duration, duration, List.map_append, List.sum_append]

theorem duration_cell (p : Config.Params) (v : Bool) :
    duration (cell p v) = p.bitMarkUs + if v then p.oneSpaceUs else p.zeroSpaceUs := rfl

/-- Cells have one mark a bit, and the space of each bit (R181). -/
theorem duration_cells (p : Config.Params) (bits : List Bool) :
    duration (bits.flatMap (cell p)) = bits.length * p.bitMarkUs +
      bits.count true * p.oneSpaceUs + bits.count false * p.zeroSpaceUs := by
  induction bits with
  | nil => simp [duration]
  | cons v bits ih =>
    rw [List.flatMap_cons, duration_append, duration_cell, ih, List.length_cons]
    cases v
    · rw [List.count_cons_of_ne (by decide), List.count_cons_self, if_neg (by decide)]
      ring
    · rw [List.count_cons_self, List.count_cons_of_ne (by decide), if_pos rfl]
      ring

/-- The end of a frame lasts FOOTER_MARK_US and GAP_US, with a footer mark and without (R182). -/
theorem duration_frameEnd (p : Config.Params) : duration (frameEnd p) = p.footerMarkUs + p.gapUs := by
  rcases footer_cases p with ⟨hf, -⟩ | ⟨hf, -⟩
  · rw [frameEnd_of_footer hf]
    rfl
  · rw [frameEnd_of_no_footer hf, hf, Nat.zero_add]
    rfl

/-- No more 1 bits than bits. -/
theorem ones_le (bytes : List Byte) : ones bytes ≤ 8 * bytes.length := by
  rw [← length_wireBitsOf]
  exact List.count_le_length

/-- The bits of a byte list that are not 1 are 0. -/
theorem count_false_wireBitsOf (bytes : List Byte) :
    (wireBitsOf bytes).count false = 8 * bytes.length - ones bytes := by
  have h := List.count_false_add_count_true (wireBitsOf bytes)
  rw [length_wireBitsOf] at h
  rw [ones]
  omega

/-- The duration of a frame of any number of bytes (R183). -/
theorem duration_frame (p : Config.Params) (bytes : List Byte) :
    duration (frame p bytes) = 8 * bytes.length * p.bitMarkUs + ones bytes * p.oneSpaceUs +
      (8 * bytes.length - ones bytes) * p.zeroSpaceUs + p.footerMarkUs + p.gapUs := by
  rw [frame, duration_append, duration_cells, duration_frameEnd, length_wireBitsOf,
    count_false_wireBitsOf, ones, Nat.add_assoc _ p.footerMarkUs]

/-- Settles O39: the general duration at ten bytes, then at the document's constants. -/
theorem frameDurationCountsTheOneBits : Obligations.FrameDurationCountsTheOneBits := by
  intro p bytes hlen
  have hd := duration_frame p bytes
  have hle := ones_le bytes
  rw [hlen] at hd hle
  refine ⟨hd, hle, fun hm ho hz hf => ?_⟩
  rw [hd, hm, ho, hz, hf]
  omega

/-! ### SEND -/

/-- Settles O40: the answer of SEND, with the checksum as a number. -/
theorem sendAppendsOneRecordOfTheRecomputedState :
    Obligations.SendAppendsOneRecordOfTheRecomputedState := by
  refine ⟨encodedB_of_row (name := "SEND") rfl, fun b s => ?_⟩
  obtain ⟨m, hm, hexec⟩ := exec_send b s
  exact ⟨m, hexec, hm.keep, by rw [hm.nine, toNat_ck]⟩

/-! ### What the arguments of the primitive ask for -/

/-- The wire order as a list over the bit cells (spec/20_memory.md R64). -/
theorem wireBitsOf_eq_map_range (bytes : List Byte) : wireBitsOf bytes =
    (List.range (8 * bytes.length)).map fun j => (bytes.getD (j / 8) 0).getLsbD (7 - j % 8) := by
  refine List.ext_getElem (by simp) fun j hj _ => ?_
  have hb : j / 8 < bytes.length := by
    rw [length_wireBitsOf] at hj
    omega
  have h := getElem?_wireBitsOf bytes j hb
  rw [List.getElem?_eq_getElem hj, Option.some_inj] at h
  rw [h, List.getElem_map, List.getElem_range, List.getD_eq_getElem _ _ hb]

/-- The cells of ten bytes, bit cell by bit cell (R182). -/
theorem cells_eq_flatMap_range (p : Config.Params) {bytes : List Byte} (hlen : bytes.length = 10) :
    (wireBitsOf bytes).flatMap (cell p) =
      (List.range 80).flatMap fun j => cell p ((bytes.getD (j / 8) 0).getLsbD (7 - j % 8)) := by
  rw [wireBitsOf_eq_map_range, List.flatMap_map, hlen]

/-- The end of a frame with its test the other way round. -/
theorem frameEnd_eq (p : Config.Params) : frameEnd p =
    (if p.footerMarkUs = 0 then [] else [⟨.mark, p.footerMarkUs⟩]) ++ [⟨.space, p.gapUs⟩] := by
  rcases footer_cases p with ⟨hf, -⟩ | ⟨hf, -⟩
  · rw [frameEnd_of_footer hf, if_neg (by omega), List.singleton_append]
  · rw [frameEnd_of_no_footer hf, if_pos hf, List.nil_append]

theorem flatMap_range_const {α : Type} (n : Nat) (l : List α) :
    (List.range n).flatMap (fun _ => l) = (List.replicate n l).flatten := by
  rw [List.flatMap_def, List.map_const', List.length_range]

/-- The arguments ask for the frames of the recomputed state, 1 + b times (R182, R184, R185). -/
theorem askedPulses_primitiveArgs (p : Config.Params) (b : Half) (m : Memory) :
    askedPulses p.footerMarkUs (primitiveArgs p b m) = (sendRecord p b m.recompute.bytes).pulses := by
  rw [sendRecord, frame, cells_eq_flatMap_range p (Memory.length_bytes _), frameEnd_eq,
    ← List.append_assoc, ← flatMap_range_const]
  simp only [askedPulses, primitiveArgs, cell, Config.stateBits, if_true]

/-- Settles O41: the record of SEND has the pulses that the arguments ask for. -/
theorem sendAsksThePrimitiveForItsRecord : Obligations.SendAsksThePrimitiveForItsRecord := by
  intro b s t h
  rw [exec_send_eq, Host.Outcome.next.injEq] at h
  subst h
  rw [askedPulses_primitiveArgs, withStatus_txLog, withRecord_txLog, withMem_txLog, withStatus_mem,
    withRecord_mem, withMem_mem]
  exact ⟨rfl, rfl⟩

end Sys2Proof.Machine

/-! PROOFS. The timing decoder, one lemma for each way a decode ends, in any configuration: at the checks
of the bit count and the length, at a mismatch, with the bytes the cells carry; and that its answer
depends on what it reads. O42 to O44 and O46 to O48. -/

namespace Sys2Proof.Machine

open Sys2Proof.Claim

/-! ### The decode commands -/

theorem exec_decode (a : Byte) (b : Half) (s : State) :
    exec (.decode a b) s = decodeCommand Config.chosen false a b s := rfl

theorem exec_decodeStrict (a : Byte) (b : Half) (s : State) :
    exec (.decodeStrict a b) s = decodeCommand Config.chosen true a b s := rfl

/-- A row of format AB gives its command whatever A and B are. -/
theorem encodedAB_of_row {op : Byte} {name : String} {i : Byte → Half → Instr}
    (hr : opcodeRows.find? (fun q => q.op == op) = some ⟨name, op, .ab, i⟩) : EncodedAB op i := by
  intro a b s
  rw [issue_pack hr]
  rfl

section Command
variable {p : Config.Params} {strict : Bool} {a : Byte} {b : Half} {s : State}

/-! ### The checks of the bit count and the length -/

/-- A bit count that the decode cannot take (R203). -/
theorem decodeBytes_of_not_nbitsOk {rt : Nat → Option Nat} {j : DecodeJob} (h : j.nbitsOk = false) :
    decodeBytes p rt j = .error (.failed .decNbits) :=
  if_pos (by rw [h]; rfl)

/-- A bit count that the decode can take, and too few samples (R203). -/
theorem decodeBytes_of_short {rt : Nat → Option Nat} {j : DecodeJob} (h : j.nbitsOk = true)
    (hl : j.rtLen < j.off + j.need p) : decodeBytes p rt j = .error (.failed .decShort) := by
  rw [decodeBytes, if_neg (by rw [h]; decide), if_pos hl]

/-- The bit counts that a decode cannot take, one by one (R203). -/
theorem nbitsOk_eq_false_iff (j : DecodeJob) : j.nbitsOk = false ↔
    (j.strict = true ∧ j.nbits ≠ 80) ∨ j.nbits = 0 ∨ j.nbits % 8 ≠ 0 ∨ 80 < j.nbits := by
  rw [← Bool.not_eq_true, nbitsOk_iff, not_and_or, Classical.not_imp]
  exact or_congr_right (by omega)

/-- The samples that a decode needs, cells first (R203). -/
theorem off_add_need (p : Config.Params) (j : DecodeJob) : j.off + j.need p =
    j.off + (2 * j.nbits + if p.footerMarkUs > 0 then 1 else 0) :=
  congrArg (j.off + ·) (Nat.add_comm _ _)

/-- After the checks of R203, a decode fails with a mismatch or a wrong checksum only (R204 to R207). -/
theorem decodeBytes_failed_of_passes {rt : Nat → Option Nat} {j : DecodeJob} {e : Completion}
    (hp : j.Passes p) (h : decodeBytes p rt j = .error (.failed e)) :
    e = .decMismatch ∨ e = .decChecksum := by
  rcases decodeCells_cases p rt j.off j.nbits with
    ⟨bits, hd, hl, hb⟩ | ⟨k, -, -, -, ⟨hd, -⟩ | ⟨i, hd, -⟩⟩
  · have hc : CellsCarry p rt j.off j.nbits := fun i hi => ⟨_, hb i (by omega)⟩
    rcases checkEnd_cases hp hc with ⟨-, he⟩ | he | ⟨i, -, -, he⟩
    · rw [decodeBytes_of_match hp hd he] at h
      split at h <;> cases h
      exact .inr rfl
    · cases (decodeBytes_of_end hp hd he).symm.trans h
      exact .inl rfl
    · cases (decodeBytes_of_end hp hd he).symm.trans h
  · cases (decodeBytes_of_cells hp hd).symm.trans h
    exact .inl rfl
  · cases (decodeBytes_of_cells hp hd).symm.trans h

/-- After the checks of R203, a decode reports neither of their codes. -/
theorem status_of_passes (hp : (s.decodeJob strict a b).Passes p) {t : State}
    (h : decodeCommand p strict a b s = .next t) : t.status ≠ some 5 ∧ t.status ≠ some 3 := by
  cases hd : decodeBytes p s.rtSample? (s.decodeJob strict a b) with
  | ok bytes =>
    cases (decodeCommand_ok hd).symm.trans h
    show some (0 : BitVec 4) ≠ some 5 ∧ some (0 : BitVec 4) ≠ some 3
    decide
  | error e =>
    cases e with
    | unwritten i => exact absurd ((decodeCommand_unwritten hd).symm.trans h) (unwritten_ne_next _ _)
    | failed e =>
      cases (decodeCommand_failed hd).symm.trans h
      show some e.code ≠ some 5 ∧ some e.code ≠ some 3
      rcases decodeBytes_failed_of_passes hp hd with rfl | rfl <;> decide

/-- A decode that the claims say can decode passes the checks of R203. -/
theorem passes_of_canDecode (hs : strict = true → a = 80) (hc : CanDecode p s a b) :
    (s.decodeJob strict a b).Passes p := by
  obtain ⟨h8, hle, hmod, hl⟩ := hc
  exact ⟨⟨fun h => congrArg BitVec.toNat (hs h), h8, hle, hmod⟩, by rwa [off_add_need]⟩

/-! ### Samples that all match -/

/-- A decode whose samples all match commits the bytes they carry, unless the mode is strict and their
checksum is wrong (R204 to R208). -/
theorem decodeCommand_of_carries {bytes : List Byte} (hlen : a.toNat = 8 * bytes.length)
    (hp : (s.decodeJob strict a b).Passes p) (hc : CarriesBytes p s.rtSample? b.toNat bytes)
    (he : EndMatches p s.rtSample? s.rtLen.toNat b.toNat a.toNat) :
    decodeCommand p strict a b s = if strict && !validChecksum bytes
      then .next { s with status := some 4 } else .next (decodedState s a bytes) := by
  have hd := decodeBytes_of_carries hlen hp hc he
  split at hd
  · rw [if_pos ‹_›]
    exact decodeCommand_failed hd
  · rw [if_neg ‹_›]
    exact decodeCommand_ok hd

/-! ### A match that fails -/

/-- A cell carries no bit where its mark fails, or its space against both durations (R204). -/
theorem not_cellCarries {m sp : Nat} (h : p.matchMark m p.bitMarkUs = false ∨
    (p.matchSpace sp p.oneSpaceUs = false ∧ p.matchSpace sp p.zeroSpaceUs = false)) (bit : Bool) :
    ¬ CellCarries p m sp bit := by
  rintro ⟨hmark, hone, hzero⟩
  rcases h with h | ⟨h1, h0⟩
  · rw [hmark] at h
    cases h
  · rw [hzero (hone.symm.trans h1)] at h0
    cases h0

/-- One sample that does not match. -/
theorem checkSample_of_false {rt : Nat → Option Nat} {i d : Nat} {f : Nat → Bool} (hd : rt i = some d)
    (hf : f d = false) : checkSample rt i f = .error (.failed .decMismatch) := by
  simp only [checkSample, hd, hf, Bool.false_eq_true, if_false]

/-- One sample that matches. -/
theorem checkSample_of_true {rt : Nat → Option Nat} {i d : Nat} {f : Nat → Bool} (hd : rt i = some d)
    (hf : f d = true) : checkSample rt i f = .ok () := by
  simp only [checkSample, hd, hf, if_true]

/-- A footer mark that does not match (R205). -/
theorem checkEnd_of_footer {rt : Nat → Option Nat} {j : DecodeJob} {d : Nat} (hf : p.footerMarkUs > 0)
    (hd : rt (j.off + 2 * j.nbits) = some d) (hm : p.matchMark d p.footerMarkUs = false) :
    checkEnd p rt j = .error (.failed .decMismatch) := by
  simp only [checkEnd, if_pos hf, checkSample_of_false (f := (p.matchMark · p.footerMarkUs)) hd hm]

/-- After the footer mark, if there is one, a gap sample that does not match (R205). -/
theorem checkEnd_of_gap {rt : Nat → Option Nat} {j : DecodeJob} {g : Nat}
    (hf : FooterMatches p rt j.off j.nbits) (hl : j.off + j.need p < j.rtLen)
    (hg : rt (j.off + j.need p) = some g) (hm : p.matchAtLeast g p.gapUs = false) :
    checkEnd p rt j = .error (.failed .decMismatch) := by
  have hgap := checkSample_of_false (f := (p.matchAtLeast · p.gapUs)) hg hm
  by_cases h : p.footerMarkUs > 0
  · obtain ⟨d, hd, hfm⟩ := hf h
    simp only [checkEnd, if_pos h, if_pos hl, hgap,
      checkSample_of_true (f := (p.matchMark · p.footerMarkUs)) hd hfm]
  · simp only [checkEnd, if_neg h, if_pos hl, hgap]

/-- The end of a frame that does not match, as the claims say it (R205). -/
theorem checkEnd_of_endFails (h : EndFails p s a b) :
    checkEnd p s.rtSample? (s.decodeJob strict a b) = .error (.failed .decMismatch) := by
  obtain ⟨-, ⟨hf, d, hd, hm⟩ | ⟨hf, hl, g, hg, hm⟩⟩ := h
  · exact checkEnd_of_footer hf hd hm
  · have hend := end_eq p (s.decodeJob strict a b)
    rw [hend] at hl hg
    exact checkEnd_of_gap hf hl hg hm

/-! ### Frames -/

/-- A decode of 80 bits where RT holds the frame of ten bytes gives the bytes, in the strict mode if
their checksum is right (R208). -/
theorem decodeCommand_of_frame {bytes : List Byte} (hlen : bytes.length = 10)
    (hl : b.toNat + (frame p bytes).length ≤ s.rtLen.toNat + 1)
    (h : HoldsDurations s b.toNat (frame p bytes)) (hv : strict = true → validChecksum bytes = true) :
    decodeCommand p strict 80 b s = .next (decodedState s 80 bytes) := by
  have h80 : (80 : Byte).toNat = 8 * bytes.length := by rw [hlen]; rfl
  obtain ⟨hc, he⟩ := carries_of_frame hl h
  have hcan : CanDecode p s 80 b := by
    rw [length_frame, hlen] at hl
    exact ⟨by decide, by decide, by decide, show b.toNat + (160 + p.footerLen) ≤ _ by omega⟩
  rw [decodeCommand_of_carries h80 (passes_of_canDecode (fun _ => rfl) hcan) hc (by rwa [h80])]
  refine if_neg fun hbad => ?_
  obtain ⟨hs, hn⟩ := Bool.and_eq_true_iff.1 hbad
  rw [hv hs] at hn
  cases hn

/-- The frame of ten bytes has 162 pulses, or 161 without a footer mark (R182). -/
theorem length_frame_of_ten (p : Config.Params) {bytes : List Byte} (hlen : bytes.length = 10) :
    (frame p bytes).length = if p.footerMarkUs > 0 then 162 else 161 := by
  rw [length_frame, hlen, Config.Params.footerLen]
  split <;> rfl

/-- RT that holds frame k of a record of copies of one frame holds that frame. -/
theorem holdsDurations_of_replicate {f : List Pulse} {n k off : Nat} (hk : k < n)
    (hoff : off = f.length * k)
    (h : ∀ j, f.length * k ≤ j → j < f.length * (k + 1) → j < s.rtLen.toNat →
      s.rtSample? j = (((List.replicate n f).flatten)[j]?).map Pulse.durationUs) :
    HoldsDurations s off f := by
  subst hoff
  intro j hj hlt
  rw [h (f.length * k + j) (Nat.le_add_right _ _) (by rw [Nat.mul_succ]; omega) hlt,
    getElem?_replicate_flatten f rfl k j hk hj]

/-! ### What a decode depends on -/

/-- A decode does not fail with OK (R230). -/
theorem ne_ok_of_decodeBytes_failed {rt : Nat → Option Nat} {j : DecodeJob} {e : Completion}
    (h : decodeBytes p rt j = .error (.failed e)) : e ≠ .ok := by
  rcases decodeBytes_cases p rt j with ⟨bits, -, -, -, -, hd⟩ | ⟨e', he, hd⟩ | ⟨i, -, -, hd⟩ <;>
    cases hd.symm.trans h
  rintro rfl
  exact absurd he (by decide)

/-- Two states on which the decode algorithm gives the same answer: the same fault, or the same STATUS
and, if that is OK, the same bytes, and the rest of each state as it was (R207, R231). -/
theorem decodeCommand_congr {s' : State}
    (h : decodeBytes p s'.rtSample? (s'.decodeJob strict a b) =
      decodeBytes p s.rtSample? (s.decodeJob strict a b)) :
    (∀ f, decodeCommand p strict a b s = .fault f → decodeCommand p strict a b s' = .fault f) ∧
    (∀ t, decodeCommand p strict a b s = .next t → decodeCommand p strict a b s' = .next { s' with
      status := t.status
      decBits := if t.status = some 0 then t.decBits else s'.decBits
      decBytes := if t.status = some 0 then t.decBytes else s'.decBytes }) := by
  cases hd : decodeBytes p s.rtSample? (s.decodeJob strict a b) with
  | ok bytes =>
    rw [decodeCommand_ok hd, decodeCommand_ok (h.trans hd)]
    refine ⟨fun f hf => (nomatch hf), fun t ht => ?_⟩
    cases ht
    rfl
  | error e =>
    cases e with
    | unwritten i =>
      rw [decodeCommand_unwritten hd, decodeCommand_unwritten (h.trans hd)]
      exact ⟨fun f hf => hf, fun t ht => absurd ht (unwritten_ne_next _ _)⟩
    | failed e =>
      rw [decodeCommand_failed hd, decodeCommand_failed (h.trans hd)]
      refine ⟨fun f hf => (nomatch hf), fun t ht => ?_⟩
      cases ht
      have hne : ¬ some e.code = some 0 := fun h0 =>
        ne_ok_of_decodeBytes_failed hd (Completion.code_eq_zero.1 (Option.some.inj h0))
      simp only [if_neg hne]

end Command

/-- The instruction of either mode is the decode of that mode. -/
theorem exec_decode_of_strict (strict : Bool) (a : Byte) (b : Half) (s : State) :
    exec (if strict then .decodeStrict a b else .decode a b) s =
      decodeCommand Config.chosen strict a b s := by
  cases strict <;> rfl

/-! ### The obligations -/

/-- Settles O42: the bit count is tested first, and what passes both tests fails in another way. -/
theorem decodeChecksBitCountThenLength : Obligations.DecodeChecksBitCountThenLength := by
  refine ⟨fun a b s => ⟨exec_decode a b s, exec_decodeStrict a b s⟩, fun p strict a b s =>
    ⟨fun hn => ?_, fun h80 h8 hle hmod => ⟨fun hl => ?_, fun hl t => ?_⟩⟩⟩
  · exact decodeCommand_failed (decodeBytes_of_not_nbitsOk ((nbitsOk_eq_false_iff _).2 hn))
  · have hn := (nbitsOk_iff (s.decodeJob strict a b)).2 ⟨h80, h8, hle, hmod⟩
    exact decodeCommand_failed (decodeBytes_of_short hn (by rwa [off_add_need]))
  · exact status_of_passes ⟨⟨h80, h8, hle, hmod⟩, by rwa [off_add_need]⟩

/-- Settles O43: both modes on samples that match, the strict one by the checksum. -/
theorem decodeCommitsTheBytesTheCellsCarry : Obligations.DecodeCommitsTheBytesTheCellsCarry := by
  refine ⟨encodedAB_of_row (name := "DECODE") rfl, encodedAB_of_row (name := "DECODE_STRICT") rfl,
    fun a b s bytes hlen hcan hc he => ⟨?_, fun h80 => ?_⟩⟩
  · have hp := passes_of_canDecode (strict := false) (fun h => nomatch h) hcan
    rw [exec_decode, decodeCommand_of_carries hlen hp hc he]
    rfl
  · have hp := passes_of_canDecode (strict := true) (fun _ => h80) hcan
    rw [exec_decodeStrict, decodeCommand_of_carries hlen hp hc he]
    cases validChecksum bytes <;> rfl

/-- Settles O44: the cells end the decode, or all of them carry bits and the frame's end does. -/
theorem decodeMismatchEndsTheDecode : Obligations.DecodeMismatchEndsTheDecode := by
  refine ⟨fun a b s => ⟨exec_decode a b s, exec_decodeStrict a b s⟩, fun p strict a b s hs hcan => ?_⟩
  have hp := passes_of_canDecode hs hcan
  refine ⟨fun k hk hc ⟨m, sp, hm, hsp, hbad⟩ =>
    decodeCommand_failed (e := .decMismatch) ?_, fun hend => decodeCommand_failed (e := .decMismatch) ?_⟩
  · exact decodeBytes_of_cells hp (decodeCells_mismatch hk hc hm hsp (not_cellCarries hbad))
  · obtain ⟨bits, hd⟩ := decodeCells_of_carry hend.1
    exact decodeBytes_of_end hp hd (checkEnd_of_endFails hend)

/-- Settles O46: the frame of the bytes, lenient and strict. -/
theorem decodeUndoesEncode : Obligations.DecodeUndoesEncode :=
  fun _ _ _ hlen hl h => ⟨decodeCommand_of_frame hlen hl h (fun hs => nomatch hs),
    fun hv => decodeCommand_of_frame hlen hl h fun _ => hv⟩

/-- Settles O47: each copy is the frame of the recomputed state, which passes the checksum; then O46. -/
theorem everyFrameOfASendDecodes : Obligations.EveryFrameOfASendDecodes := by
  intro b s t h
  obtain ⟨m, hm, hexec⟩ := exec_send b s
  cases hexec.symm.trans h
  refine ⟨sendRecord Config.chosen b m.bytes, frame Config.chosen m.bytes, rfl,
    length_frame_of_ten _ (Memory.length_bytes m), rfl, fun k off u hk hoff hrt hl => ?_⟩
  have hholds := holdsDurations_of_replicate (Nat.lt_one_add_iff.2 hk) hoff hrt
  have hlen : off.toNat + (frame Config.chosen m.bytes).length ≤ u.rtLen.toNat + 1 := by
    rwa [hoff, ← Nat.mul_succ]
  obtain ⟨hlenient, hstrict⟩ := decodeUndoesEncode m.bytes off u (Memory.length_bytes m) hlen hholds
  exact ⟨hlenient, hstrict hm.valid⟩

/-- Settles O48: the algorithm gives the same answer on samples that agree where it reads. -/
theorem decodeDependsOnlyOnTheCapture : Obligations.DecodeDependsOnlyOnTheCapture := by
  rintro strict i a b s s' rfl
  refine ⟨fun k hk => hk.bounds, fun hl hrt => ?_⟩
  have hjob : s'.decodeJob strict a b = s.decodeJob strict a b := by
    rw [State.decodeJob, State.decodeJob, hl]
  rw [exec_decode_of_strict, exec_decode_of_strict]
  exact decodeCommand_congr (by rw [hjob, decodeBytes_congr hrt])

end Sys2Proof.Machine

/-! PROOFS. How a command or a command word ends: with OK, or with a code that it raises and nothing else
changed; O14. -/

namespace Sys2Proof.Machine

/-- No legal command raises the code of an illegal word (R230). -/
theorem toNat_code_of_canRaise {i : Instr} {e : Completion} (h : e ∈ canRaise i) : e.code.toNat ≤ 5 := by
  have hne : e ≠ .illegalCommand := by
    rintro rfl
    cases i <;> simp [canRaise] at h
  cases e with
  | illegalCommand => exact absurd rfl hne
  | _ => decide

/-- A command ends with OK, or it only raises one of its codes (R231). -/
theorem Effect.status_cases {s t : State} {i : Instr} (h : Effect s i t) :
    t.status = some 0 ∨ ∃ e ∈ canRaise i, t = s.withStatus e := by
  cases h with
  | raised he => exact .inr ⟨_, he, rfl⟩
  | _ => exact .inl rfl

/-- A command's next state holds a code up to 5, and under a code other than OK only STATUS changed
(R230, R231). -/
theorem exec_failure_frame {i : Instr} {s t : State} (h : exec i s = .next t) :
    ∃ c : BitVec 4, t.status = some c ∧ c.toNat ≤ 5 ∧ (c ≠ 0 → t = { s with status := some c }) := by
  rcases (exec_effect h).status_cases with hok | ⟨e, he, rfl⟩
  · exact ⟨0, hok, by decide, fun hne => absurd rfl hne⟩
  · exact ⟨e.code, rfl, toNat_code_of_canRaise he, fun _ => rfl⟩

/-- Settles O14: a legal word runs its command, an illegal one only raises code 6. -/
theorem failureWritesOnlyStatus : Obligations.FailureWritesOnlyStatus := by
  refine ⟨fun w s t h => ?_, fun _ _ _ => exec_failure_frame⟩
  cases hd : decode w with
  | ok i =>
    rw [issue_of_decode_ok hd] at h
    obtain ⟨c, hc, hle, hframe⟩ := exec_failure_frame h
    exact ⟨c, hc, Nat.le_succ_of_le hle, hframe⟩
  | error e =>
    cases (issue_of_decode_error hd s).symm.trans h
    exact ⟨_, rfl, Completion.code_le .illegalCommand, fun _ => rfl⟩

end Sys2Proof.Machine
